-- ==== Sys2Proof/Word.lean ====
section
/-! DEFINITION. The words of ADSB-ENC (00_scope.md R7, R10): bytes, the 71-bit port word, and a tuple of eight like things for
the eight identifier characters. Nothing here interprets a bit. -/

namespace Sys2Proof

/-- A byte: a character code (`CHAR_W` = 8, 00_scope.md R5) or one byte of the frame. -/
abbrev Byte := BitVec 8

/-- The input port word `IN` (30_encoding.md R36). -/
abbrev PortWord := BitVec 71

/-- The 112-bit frame value `FV` (00_scope.md R8): byte 0 is most significant, and `F{k}` is value bit `111 - k`. -/
abbrev Frame := BitVec 112

/-- Eight like things, number 0 leftmost: `id[0..7]`, `ID_C[0..7]`, `IDX[0..7]` (10_state.md R19, R21, R22). -/
structure Lanes (α : Type) where
  c0 : α
  c1 : α
  c2 : α
  c3 : α
  c4 : α
  c5 : α
  c6 : α
  c7 : α
  deriving DecidableEq, Repr

/-- Lane `i` (R22, R58). -/
def Lanes.get {α : Type} (l : Lanes α) : Fin 8 → α
  | 0 => l.c0
  | 1 => l.c1
  | 2 => l.c2
  | 3 => l.c3
  | 4 => l.c4
  | 5 => l.c5
  | 6 => l.c6
  | 7 => l.c7

/-- The same thing done to every lane on its own (R58: lanes do not interact). -/
def Lanes.map {α β : Type} (f : α → β) (l : Lanes α) : Lanes β :=
  ⟨f l.c0, f l.c1, f l.c2, f l.c3, f l.c4, f l.c5, f l.c6, f l.c7⟩

/-- All eight lanes alike. -/
def Lanes.fill {α : Type} (a : α) : Lanes α := ⟨a, a, a, a, a, a, a, a⟩

/-- All eight lanes where each holds a value; `none` where one holds none. -/
def Lanes.values? {α : Type} : Lanes (Option α) → Option (Lanes α)
  | ⟨some a0, some a1, some a2, some a3, some a4, some a5, some a6, some a7⟩ =>
    some ⟨a0, a1, a2, a3, a4, a5, a6, a7⟩
  | _ => none

/-- The eight identifier codes of a transaction (R22). -/
abbrev Ident := Lanes Byte

end Sys2Proof
end

