-- ==== Sys2Proof/Syntax.lean ====
section
/-! DEFINITION. The operations of ADSB-ENC: one constructor per row of spec/opcode_table.json. RESET, START and NOP are the port
transactions (30_encoding.md R38); COMPLETE is the block's internal step (41_field_packer.md R55); the last four are
sub-operations of the encode, which no port word invokes. Their operands are those of each operation's own rule (log 10). -/

namespace Sys2Proof

/-- An operation of the block. Every operand has exactly the width the spec gives it, so an operand outside its range
cannot be written (30_encoding.md R39, 41_field_packer.md R59). -/
inductive Instr where
  /-- RESET (70_reset_and_hazards.md R87): no operands; start, df and id are ignored. -/
  | reset
  /-- START (41_field_packer.md R54): the `df` and `id` port values of the same transaction. -/
  | start (df : BitVec 5) (id : Ident)
  /-- NOP (41_field_packer.md R56): no operands. -/
  | nop
  /-- COMPLETE (41_field_packer.md R55): works on the captured inputs. -/
  | complete
  /-- ENCODE_FRAME (41_field_packer.md R48). -/
  | encodeFrame (df : BitVec 5) (id : Ident)
  /-- CHAR_ENC (40_char_encoder.md R42). -/
  | charEnc (c : Byte)
  /-- ID_PACK (41_field_packer.md R47). -/
  | idPack (id : Ident)
  /-- CRC24 (42_crc24.md R61): the 88 data bits, `D{0}` most significant. -/
  | crc24 (d : BitVec 88)
  deriving DecidableEq, Repr

end Sys2Proof
end

