-- ==== Sys2Proof/Decode.lean ====
section
/-! DEFINITION. The decode of the port word (30_encoding.md R36, R38, R40), and after it the encoder, written from the same
tables. The hardware has no instruction bytes and no stored program (R12, R39): a transaction is one 71-bit word on the input
ports. Decoding is total on port words; a number that is no port word is refused by name (log 20). -/

namespace Sys2Proof

/-- Why a number does not decode. -/
inductive DecodeError where
  /-- The number has a bit at 71 or above: the port has 71 bits, and bit 71 of its 18 hex digits is always 0 (R36). -/
  | notAPortWord
  deriving DecidableEq, Repr

/-- `rst` = IN[70] (R36). -/
def portRst (w : PortWord) : Bool := w.getLsbD 70

/-- `start` = IN[69] (R36). -/
def portStart (w : PortWord) : Bool := w.getLsbD 69

/-- `df` = IN[68:64] (R36, R40 (a)). -/
def portDf (w : PortWord) : BitVec 5 := w.extractLsb' 64 5

/-- `id[i]` = IN[63-8i : 56-8i], `id[0]` leftmost (R36, R40 (b)). -/
def portId (w : PortWord) : Ident :=
  { c0 := w.extractLsb' 56 8
    c1 := w.extractLsb' 48 8
    c2 := w.extractLsb' 40 8
    c3 := w.extractLsb' 32 8
    c4 := w.extractLsb' 24 8
    c5 := w.extractLsb' 16 8
    c6 := w.extractLsb' 8 8
    c7 := w.extractLsb' 0 8 }

/-- The transaction a port word carries, from IN[70:69] alone; `rst` wins over `start` (R38). -/
def decode (w : PortWord) : Instr :=
  if portRst w then .reset
  else if portStart w then .start (portDf w) (portId w)
  else .nop

/-- Decoding a number: any number below 2^71 is a port word and decodes; every other is refused by name. -/
def decodeNat (w : Nat) : Except DecodeError Instr :=
  if w < 2 ^ 71 then .ok (decode (BitVec.ofNat 71 w)) else .error .notAPortWord

/-- The decoder over the numbering of spec/opcode_table.json: a transaction is ONE word of 71 bits, whose bit 0 is bit 0 of
`IN`; the bits above `nbits` are zero (log 20). -/
def decodeTableWord (_nbits w : Nat) : Option Instr :=
  match decodeNat w with
  | .ok i => some i
  | .error _ => none

/-- The port word of a START: `rst` 0, `start` 1, `df`, then `id[0]` to `id[7]` (R36, R41). -/
def startWord (df : BitVec 5) (id : Ident) : PortWord :=
  0#1 ++ 1#1 ++ df ++ id.c0 ++ id.c1 ++ id.c2 ++ id.c3 ++ id.c4 ++ id.c5 ++ id.c6 ++ id.c7

/-- The port word of a RESET line of a script, fields zero (R41). -/
def resetWord : PortWord := 0x400000000000000000#71

/-- The port word of a NOP line of a script, fields zero (R41). -/
def nopWord : PortWord := 0#71

/-- The port word of an operation; `none` for the internal ones, which have no port encoding (R38). -/
def encode : Instr → Option PortWord
  | .reset => some resetWord
  | .start df id => some (startWord df id)
  | .nop => some nopWord
  | .complete => none
  | .encodeFrame _ _ => none
  | .charEnc _ => none
  | .idPack _ => none
  | .crc24 _ => none

end Sys2Proof
end

