-- ==== Sys2Proof/Config.lean ====
section
/-! DEFINITION. What the build of an ADSB-ENC fixes (00_scope.md R5, 10_state.md R13 to R15), what makes such a configuration
legal, the constants the spec leaves OPEN, and the free value for the latency it does not bound. -/

namespace Sys2Proof

/-- `GEN_ORIENT` (00_scope.md R5, 42_crc24.md R62): which end of `GEN` stands at the current scan position. -/
inductive GenOrient where
  | lsbAtCurrent
  | msbAtCurrent
  deriving DecidableEq, Repr, Inhabited

/-- `HEX_CASE` (00_scope.md R5, 60_exceptions.md R86): the letter case of the host's display digits. -/
inductive HexCase where
  | upper
  | lower
  deriving DecidableEq, Repr, Inhabited

/-- `ALPHABET` (10_state.md R13): 64 entries, each an 8-bit character code or `UNASSIGNED` (`none`). -/
abbrev Alphabet := Vector (Option Byte) 64

/-- The parameters of 00_scope.md R5 that a build (or, for the last three, the host) fixes. `GEN` is `Config.gen`, the same
for every build. -/
structure Config where
  ca : BitVec 3
  aa : BitVec 24
  tcb : BitVec 8
  alphabet : Alphabet
  genOrient : GenOrient := .lsbAtCurrent
  doneSentinel : Int
  txTimeout : Option Nat := none
  hexCase : HexCase
  deriving DecidableEq, Repr

/-- The Generator Polynomial constant `GEN` (42_crc24.md R60). -/
def Config.gen : BitVec 25 := 0x1205FFF#25

/-- An uppercase letter `A`–`Z` (R13 (c)). -/
def isUpperLetter (c : Byte) : Bool := decide (0x41 ≤ c.toNat) && decide (c.toNat ≤ 0x5A)

/-- A digit `0`–`9` (R13 (c)). -/
def isDigitCode (c : Byte) : Bool := decide (0x30 ≤ c.toNat) && decide (c.toNat ≤ 0x39)

/-- A lowercase letter `a`–`z` (R13, last paragraph). -/
def isLowerLetter (c : Byte) : Bool := decide (0x61 ≤ c.toNat) && decide (c.toNat ≤ 0x7A)

/-- A code R13 rules out of every alphabet: a lowercase letter, a control code (0x00–0x1F, 0x7F) or a code 0x80–0xFF. -/
def neverAssigned (c : Byte) : Bool :=
  isLowerLetter c || decide (c.toNat ≤ 0x1F) || decide (0x7F ≤ c.toNat)

/-- A punctuation character: every code R13 does not place elsewhere (DEDUCED: R13 names the classes, not the set; log 21). -/
def isPunctuation (c : Byte) : Bool :=
  !(neverAssigned c) && !(isUpperLetter c) && !(isDigitCode c) && c != 0x20#8

/-- The assigned entries of a table, in index order. -/
def assignedCodes (a : Alphabet) : List Byte := a.toList.filterMap id

/-- R13 (a): entry 32 is the space character. -/
def Alphabet.spaceAt32 (a : Alphabet) : Bool := a[32] == some 0x20#8

/-- R13 (b): the assigned entries are pairwise distinct. -/
def Alphabet.distinct (a : Alphabet) : Bool := decide (assignedCodes a).Nodup

/-- R13 (c): every uppercase letter and every digit is assigned. -/
def Alphabet.lettersAndDigits (a : Alphabet) : Bool :=
  ((List.range 26).all fun k => (assignedCodes a).contains (BitVec.ofNat 8 (0x41 + k))) &&
  ((List.range 10).all fun k => (assignedCodes a).contains (BitVec.ofNat 8 (0x30 + k)))

/-- R13 (c): every assigned entry is an uppercase letter, a digit, space or punctuation. -/
def Alphabet.classesOnly (a : Alphabet) : Bool :=
  (assignedCodes a).all fun c => isUpperLetter c || isDigitCode c || c == 0x20#8 || isPunctuation c

/-- The constraints of 10_state.md R13 (a) to (c). (d), no write port, is a fact about the machine: no step writes it. -/
def Alphabet.Legal (a : Alphabet) : Bool :=
  a.spaceAt32 && a.distinct && a.lettersAndDigits && a.classesOnly

/-- A configuration the spec admits (R90): its alphabet meets every constraint of R13. Every value of the other parameters is
legal (R5). -/
def Config.Legal (c : Config) : Bool := c.alphabet.Legal

/-- The reference alphabet (10_state.md R14): used by the test vectors only, never by a meaning. -/
def Alphabet.ref : Alphabet := Vector.ofFn fun i =>
  if 1 ≤ i.val ∧ i.val ≤ 26 then some (BitVec.ofNat 8 (0x40 + i.val))
  else if i.val = 32 then some 0x20#8
  else if 48 ≤ i.val ∧ i.val ≤ 57 then some (BitVec.ofNat 8 i.val)
  else none

/-- The reference configuration `REF` (00_scope.md R5, 10_state.md R14): used by the test vectors only. R5 gives no `REF`
value for the sentinel and the letter case: 0 and upper stand there as test values (log 2). -/
def Config.ref : Config :=
  { ca := 5#3, aa := 0x4840D6#24, tcb := 0x20#8, alphabet := Alphabet.ref, doneSentinel := 0, hexCase := .upper }

/-- An alphabet together with the proof that it meets R13. -/
abbrev LegalAlphabet := { a : Alphabet // a.Legal = true }

/-- The reference alphabet meets every constraint of R13, as R14 says; so a legal alphabet exists. -/
theorem Alphabet.ref_legal : Alphabet.ref.Legal = true := by decide +kernel

/-- OPEN (R5, D7): the Capability constant. Nothing is known of it. -/
opaque Config.freeCa : BitVec 3

/-- OPEN (R5, D7): the Station Address constant. -/
opaque Config.freeAa : BitVec 24

/-- OPEN (R5, D7): the Type-Code byte; its lower nibble is any value too (93_implementation_defined.md I16). -/
opaque Config.freeTcb : BitVec 8

/-- OPEN (R5, D4): some legal alphabet. The argument only says that one exists; the constant is not it. -/
opaque Config.freeAlphabet [Inhabited LegalAlphabet] : LegalAlphabet

/-- OPEN (R5, D23): the RF collaborator's completion value. -/
opaque Config.freeDoneSentinel : Int

/-- OPEN (R5, D22): the letter case of the display digits. -/
opaque Config.freeHexCase : HexCase

/-- FREE VALUE `LATENCY` (00_scope.md R5, 70_reset_and_hazards.md R94): how many host turns pass between the n-th accepted
START and the turn of its COMPLETE. Finite, unbounded, unknown. That it is ONE function of the count of accepted STARTs, the same
for every block, every run and every captured input, is the model's choice (DESIGN CHOICE, log 4). -/
opaque Config.latency : Nat → Nat

/-- The configuration of the machine a run starts with: the OPEN parameters free, the two parameters with a stated default
(`GEN_ORIENT`, R62; `TX_TIMEOUT`, R84) at that default (log 2, 3). -/
def Config.build : Config :=
  { ca := Config.freeCa
    aa := Config.freeAa
    tcb := Config.freeTcb
    alphabet := (@Config.freeAlphabet ⟨⟨Alphabet.ref, Alphabet.ref_legal⟩⟩).val
    doneSentinel := Config.freeDoneSentinel
    hexCase := Config.freeHexCase }

/-- The build meets the constraints of R13, whatever its free values are. -/
theorem Config.build_legal : Config.build.Legal = true :=
  (@Config.freeAlphabet ⟨⟨Alphabet.ref, Alphabet.ref_legal⟩⟩).property

end Sys2Proof
end

