-- ==== Sys2Proof/Machine/State.lean ====
section
/-! DEFINITION. The state of the model: the block's architectural state (10_state.md R16 to R20), its transient datapath (R21),
the constants it is built with (R15), the host agent with its lifecycle (60_exceptions.md R78, R79), and the schedule of the two
agents (R73). Plain data only. -/

namespace Sys2Proof.Machine

/-- Why a step stops with a fault. Each is a fault of the model: the block itself raises no exception (R70). -/
inductive Fault where
  /-- `READ_NOT_VALID` (60_exceptions.md R71): raised by a host read of `frame`, a byte of it or `crc` while VALID = 0, and by
  a read of a byte holding `NOVAL` (00_scope.md R9). Safe: the model stops where the block would drive stale or undefined
  bits. -/
  | readNotValid
  /-- Raised by an access to a byte address outside 0..13, which does not exist (20_memory.md R24). Safe: the model stops at an
  access the ports cannot express (log 12). -/
  | noSuchAddress
  /-- Raised by COMPLETE in BUSY where a captured cell holds `NOVAL` (10_state.md R19). No run from reset gets there. Safe: the
  model stops where the spec gives no value to encode (log 8). -/
  | captureNoval
  deriving DecidableEq, Repr

/-- Why the model does not take a step. -/
inductive Refusal where
  /-- An operation that has no meaning in the model. Raised by no arm. Safe. -/
  | notModelled (mnemonic : String)
  /-- Raised by COMPLETE asked for in IDLE, where it is not enabled (41_field_packer.md R55, 60_exceptions.md R73). `step` never
  asks. Safe: the model takes no step where the block takes none (log 7). -/
  | completeNotEnabled
  /-- Raised by a host act whose `df` is a natural number above 31 (41_field_packer.md R59 (a)). Safe: the port cannot carry
  it. -/
  | dfOutOfRange
  /-- Raised by a host act whose identifier has not the width the port has (41_field_packer.md R59 (b), (c)). Safe: the port
  cannot carry it. -/
  | identifierLength
  deriving DecidableEq, Repr

/-- PHASE (10_state.md R18). -/
inductive Phase where
  | idle
  | busy
  deriving DecidableEq, Repr

/-- The lifecycle's one state variable TX (60_exceptions.md R79). -/
inductive Tx where
  | idle
  | transmitting
  deriving DecidableEq, Repr

/-- The tagged result channel of the RF collaborator (60_exceptions.md R82, R83). -/
inductive Report where
  | progress (v : Int)
  | done
  deriving DecidableEq, Repr

/-- Which outputs a host read samples: any subset (20_memory.md R27). -/
structure ReadSel where
  frame : Bool := false
  crc : Bool := false
  valid : Bool := false
  deriving DecidableEq, Repr

/-- What the host last read on each output (60_exceptions.md R85). Host side: no block operation reads it. -/
structure Sample where
  frame : Option Frame := none
  byte : Option Byte := none
  crc : Option (BitVec 24) := none
  valid : Option Bool := none
  deriving DecidableEq, Repr

/-- One act of the host, which takes one host turn. Every turn drives one port word (R73 (a)): the word given, the START of the
act, or, where the act drives no request, a NOP. -/
inductive HostAct where
  /-- Drive this port word: the script lines RESET and NOP, or any other word (30_encoding.md R38, R41). -/
  | drive (w : PortWord)
  /-- The script line `START df=<n>, id="..."`: exactly 8 characters (R41). -/
  | start (df : Nat) (id : List Byte)
  /-- The script line `WAIT`: NOP until `valid` reads 1 (R41). -/
  | wait
  /-- A script line `EXPECT`, or any host read of outputs (R41, R27). -/
  | read (sel : ReadSel)
  /-- A host read of one byte of the `frame` port (R24, R27). -/
  | readByte (a : Nat)
  /-- A turn with nothing else to do: the host polls `valid` (60_exceptions.md R80 step 3, R85), as it does at the start of every
  turn, and issues a START that an accepted BEGIN still owes (R80 step 2, log 14). -/
  | poll
  /-- A BEGIN request with the collaborators' current `df` and text (R80, R81). -/
  | beginTx (df : Nat) (text : List Byte)
  /-- A report of the RF collaborator (R82, R83). -/
  | report (r : Report)
  /-- A report on the source's single integer channel (R82). -/
  | reportInt (v : Int)
  /-- The step `Timeout`, enabled only where `TX_TIMEOUT` is set (R84). -/
  | timeout
  deriving DecidableEq, Repr

/-- The frame buffer FB (20_memory.md R24): the cells that hold a value, addresses strictly rising. An address that is not
listed holds `NOVAL`. -/
abbrev Memory := List Host.Cell

/-- The canonical form of FB: addresses strictly rising, and every one of them one of the 14 that exist. -/
abbrev Memory.wf (m : Memory) : Prop :=
  (m.map Prod.fst).Pairwise (· < ·) ∧ ∀ c ∈ m, c.1 < 14

/-- The internal datapath (10_state.md R21), each element holding a value or none. Not observable (log 9). -/
structure Datapath where
  /-- `idx`, the result of CHAR_ENC (40_char_encoder.md R42). -/
  idx : Option (BitVec 6)
  /-- `IDX[0..7]` (R21, 41_field_packer.md R47). -/
  lanes : Lanes (Option (BitVec 6))
  /-- `ACC` (R21, R47). -/
  acc : Option (BitVec 48)
  /-- `B[0..13]` as one value (R21, 41_field_packer.md R48). -/
  buf : Option Frame
  /-- `W{0..111}`, offset 0 most significant (R21, 42_crc24.md R63). -/
  w : Option (BitVec 112)
  /-- The scan position `p`, 0 to 88 (R21, R63). -/
  p : Option Nat
  deriving DecidableEq, Repr

/-- No computation under way: no element holds a value (10_state.md R21, R23). -/
def Datapath.blank : Datapath :=
  { idx := none, lanes := Lanes.fill none, acc := none, buf := none, w := none, p := none }

/-- The host agent (60_exceptions.md R78 (1)). -/
structure HostSide where
  /-- What the host does next, oldest first; an empty plan is an idle host (log 6). -/
  plan : List HostAct
  /-- TX (R79). -/
  tx : Tx
  /-- The inputs of the accepted BEGINs whose START (R80 step 2) is not issued yet, oldest first (log 14). -/
  startsDue : List (BitVec 5 × Ident)
  /-- How many accepted BEGINs have issued their START and still owe their hand-over: R80 steps 3 to 5 are under way (log 13,
  14). -/
  handOversDue : Nat
  /-- Host turns since the last accepted BEGIN (R84, log 15). -/
  elapsed : Nat
  /-- The frames handed to the RF collaborator, oldest first (R80 (5)). -/
  handed : List Frame
  /-- What the host last read (log 11). -/
  seen : Sample
  deriving DecidableEq, Repr

/-- The whole model: block, host, and the schedule that says which of the two moves next. -/
structure State where
  /-- The build-time constants (10_state.md R15). No step writes them. -/
  cfg : Config
  /-- FRAME / FB (R16, 20_memory.md R24). -/
  fb : Memory
  /-- VALID (R17). -/
  valid : Bool
  /-- PHASE (R18). -/
  phase : Phase
  /-- DF_C (R19); `none` is `NOVAL`. -/
  dfC : Option (BitVec 5)
  /-- ID_C[0..7] (R19); `none` is `NOVAL`, cell by cell. -/
  idC : Lanes (Option Byte)
  /-- The transient datapath (R21). -/
  dp : Datapath
  /-- Host turns left before COMPLETE takes its turn (R94, log 4). The model's own. -/
  wait : Nat
  /-- How many latencies have been drawn (log 4). The model's own. -/
  draws : Nat
  /-- The host agent (R78 (1)). -/
  host : HostSide
  deriving DecidableEq, Repr

/-- The host before it has done anything: TX is Idle (R23, R79), nothing planned, read or handed over (log 26). -/
def HostSide.initial : HostSide :=
  { plan := [], tx := .idle, startsDue := [], handOversDue := 0, elapsed := 0, handed := [], seen := {} }

/-- The state right after RESET, the launch state of every run (10_state.md R23, 70_reset_and_hazards.md R89). -/
def State.reset : State :=
  { cfg := Config.build
    fb := []
    valid := false
    phase := .idle
    dfC := none
    idC := Lanes.fill none
    dp := Datapath.blank
    wait := 0
    draws := 0
    host := HostSide.initial }

end Sys2Proof.Machine
end

