-- ==== Sys2Proof/Machine/Ops.lean ====
section
/-! DEFINITION. The named operations over memory and registers: FB byte by byte, `MemRead` and `MemWrite` (00_scope.md R9,
20_memory.md R24), the views of FRAME that the output ports carry (10_state.md R20, 30_encoding.md R37), and the host's reads with
their model fault (60_exceptions.md R71). There is no exception entry and no return from one: the block has no trap (R70, R74). -/

namespace Sys2Proof.Machine

/-- The byte at an address; `none` is `NOVAL` (10_state.md R16). -/
def Memory.read? : Memory → Nat → Option Byte
  | [], _ => none
  | (b, u) :: m, a => if a = b then some u else Memory.read? m a

/-- Write of one byte, keeping the list in address order. -/
def Memory.write : Memory → Nat → Byte → Memory
  | [], a, v => [(a, v)]
  | (b, u) :: m, a, v =>
    if a < b then (a, v) :: (b, u) :: m
    else if a = b then (a, v) :: m
    else (b, u) :: Memory.write m a v

/-- Write of bytes at addresses a, a+1, … in turn. -/
def Memory.writeBytes : Memory → Nat → List Byte → Memory
  | m, _, [] => m
  | m, a, v :: vs => Memory.writeBytes (Memory.write m a v) (a + 1) vs

/-- The bytes of an n-byte value, most significant first (00_scope.md R8). -/
def bytesBE (n : Nat) (v : BitVec (8 * n)) : List Byte :=
  (List.range n).map fun m => v.extractLsb' (8 * (n - 1 - m)) 8

/-- The big-endian value of n bytes at a (00_scope.md R8); `none` where one of them holds `NOVAL`. -/
def Memory.value? (m : Memory) (a : Nat) : (n : Nat) → Option (BitVec (8 * n))
  | 0 => some 0#0
  | n + 1 =>
    match Memory.value? m a n, Memory.read? m (a + n) with
    | some hi, some b => some (hi ++ b)
    | _, _ => none

/-- `MemRead(a, n)` (00_scope.md R9, 20_memory.md R24): a byte that does not exist, and a byte holding `NOVAL`, fault.
FB has the 14 byte addresses 0..13. -/
def Memory.memRead (m : Memory) (a n : Nat) : Except Fault (BitVec (8 * n)) :=
  if a + n ≤ 14 then
    match m.value? a n with
    | some v => .ok v
    | none => .error .readNotValid
  else .error .noSuchAddress

/-- `MemWrite(a, n, v)` (R9, R24): the n bytes of v, big-endian, at a..a+n-1. -/
def Memory.memWrite (m : Memory) (a n : Nat) (v : BitVec (8 * n)) : Except Fault Memory :=
  if a + n ≤ 14 then .ok (m.writeBytes a (bytesBE n v)) else .error .noSuchAddress

/-- Byte i of a frame value (00_scope.md R8). -/
def frameByte (f : Frame) (i : Nat) : Byte := f.extractLsb' (8 * (13 - i)) 8

/-- `F{k}`, the bit at offset k from the start of the frame: `F{k} = FV[111-k]` (00_scope.md R6, R8). -/
def frameBit (f : Frame) (k : Nat) : Bool := f.getLsbD (111 - k)

/-- FB holding a whole frame: its 14 cells. -/
def frameCells (f : Frame) : Memory := (List.range 14).map fun i => (i, frameByte f i)

/-- The `frame` output as one value, where every byte holds one (10_state.md R16, R22). -/
def State.frameOut (s : State) : Option Frame := s.fb.value? 0 14

/-- CRC_OUT = FRAME[11] ++ FRAME[12] ++ FRAME[13], a view of FRAME (10_state.md R20). -/
def State.crcOut (s : State) : Option (BitVec 24) := s.fb.value? 11 3

/-- One bit of the output port word OUT (30_encoding.md R37): OUT[136:25] the frame, OUT[24:1] CRC_OUT, OUT[0] VALID; `none`
where the bit is `NOVAL`, and above bit 136. -/
def State.outBit (s : State) (k : Nat) : Option Bool :=
  if k = 0 then some s.valid
  else if k ≤ 24 then s.crcOut.map fun c => c.getLsbD (k - 1)
  else if k ≤ 136 then (s.fb.read? (13 - (k - 25) / 8)).map fun b => b.getLsbD ((k - 25) % 8)
  else none

/-- OUT as one 137-bit value where no bit of it is `NOVAL` (30_encoding.md R37). -/
def State.outWord (s : State) : Option (BitVec 137) :=
  match s.frameOut, s.crcOut with
  | some f, some c => some (f ++ c ++ BitVec.ofBool s.valid)
  | _, _ => none

/-- A host read of n bytes of the `frame` port from a (60_exceptions.md R71): a fault of the model while VALID = 0. -/
def State.readPort (s : State) (a n : Nat) : Except Fault (BitVec (8 * n)) :=
  if s.valid then s.fb.memRead a n else .error .readNotValid

/-- The host reads `frame` (R71, R85). -/
def State.readFrame (s : State) : Except Fault Frame := s.readPort 0 14

/-- The host reads `crc` (R71, R85), which repeats frame bits 88..111 (R37). -/
def State.readCrc (s : State) : Except Fault (BitVec 24) := s.readPort 11 3

/-- The host reads `valid`, which never faults (R71). -/
def State.readValid (s : State) : Bool := s.valid

/-- A host read of a subset of the outputs (20_memory.md R27): what is not selected keeps its last sample. -/
def State.sample (s : State) (sel : ReadSel) : Except Fault Sample := do
  let f ← if sel.frame then s.readFrame.map some else .ok s.host.seen.frame
  let c ← if sel.crc then s.readCrc.map some else .ok s.host.seen.crc
  let v := if sel.valid then some s.readValid else s.host.seen.valid
  pure { s.host.seen with frame := f, crc := c, valid := v }

/-- A new datapath content; the architectural state is not touched (10_state.md R21). -/
def State.withDatapath (s : State) (d : Datapath) : State := { s with dp := d }

end Sys2Proof.Machine
end

