-- ==== Sys2Proof/Machine/Operands.lean ====
section
/-! DEFINITION. The operand forms: the captured inputs (10_state.md R19), the assembly of operands at the model's boundary
(41_field_packer.md R59, 60_exceptions.md R85), and the placements of fields (30_encoding.md R33, R40). -/

namespace Sys2Proof.Machine

/-- START's capture: DF_C ← df, ID_C ← id (41_field_packer.md R54, 70_reset_and_hazards.md R92). -/
def State.capture (s : State) (df : BitVec 5) (id : Ident) : State :=
  { s with dfC := some df, idC := id.map some }

/-- RESET's part of the same cells: `NOVAL` (70_reset_and_hazards.md R87). -/
def State.dropCapture (s : State) : State := { s with dfC := none, idC := Lanes.fill none }

/-- The captured inputs where every cell holds a value (R19). -/
def State.captured? (s : State) : Option (BitVec 5 × Ident) :=
  match s.dfC, s.idC.values? with
  | some df, some id => some (df, id)
  | _, _ => none

/-- The header byte: `(zext_8(df) << 3) | zext_8(CA)` (30_encoding.md R33, 41_field_packer.md R49). -/
def headerByte (df : BitVec 5) (ca : BitVec 3) : Byte := (df.setWidth 8 <<< 3) ||| ca.setWidth 8

/-- An identifier from a list of codes: exactly eight (R59 (b)). -/
def identOfList? : List Byte → Option Ident
  | [a0, a1, a2, a3, a4, a5, a6, a7] => some ⟨a0, a1, a2, a3, a4, a5, a6, a7⟩
  | _ => none

/-- The host's padding of a short identifier with spaces to width 8 (R59 (b), 60_exceptions.md R85). -/
def padIdent (text : List Byte) : List Byte := text ++ List.replicate (8 - text.length) 0x20#8

/-- The model's boundary for a natural `df` and a list of codes (R59): refused by name where the port cannot carry them, never
truncated or wrapped. -/
def portInputs (df : Nat) (codes : List Byte) : Except Refusal (BitVec 5 × Ident) :=
  if 31 < df then .error .dfOutOfRange
  else
    match identOfList? codes with
    | none => .error .identifierLength
    | some id => .ok (BitVec.ofNat 5 df, id)

end Sys2Proof.Machine
end

