-- ==== Sys2Proof/Machine/Flags.lean ====
section
/-! DEFINITION. The one flag, VALID, with the PHASE it moves with (10_state.md R17, R18), and the model's latency countdown
(70_reset_and_hazards.md R94). -/

namespace Sys2Proof.Machine

/-- RESET's VALID ← 0, PHASE ← IDLE (70_reset_and_hazards.md R87). -/
def State.enterReset (s : State) : State := { s with valid := false, phase := .idle }

/-- An accepted START's VALID ← 0, PHASE ← BUSY (41_field_packer.md R54). -/
def State.enterBusy (s : State) : State := { s with valid := false, phase := .busy }

/-- COMPLETE's VALID ← 1, PHASE ← IDLE (41_field_packer.md R55). -/
def State.enterReady (s : State) : State := { s with valid := true, phase := .idle }

/-- An accepted START draws its latency, a free value (00_scope.md R5 `LATENCY`). DESIGN CHOICE (log 4): the value drawn depends on
the count of accepted STARTs alone, so two blocks, or two runs, with equal counts take equally many host turns; R31, R73 and R94
leave each latency free of every other. -/
def State.drawLatency (s : State) : State :=
  { s with wait := Config.latency s.draws, draws := s.draws + 1 }

end Sys2Proof.Machine
end

