-- ==== Sys2Proof/Machine/CharEncoder.lean ====
section
/-! DEFINITION. The Character Encoder (40_char_encoder.md R42 to R46). -/

namespace Sys2Proof.Machine

/-- The index `i` as a 6-bit value where the search found one, 32 (space) where it found none (R42). -/
def indexOrSpace : Option Nat → BitVec 6
  | some i => BitVec.ofNat 6 i
  | none => 32#6

/-- CHAR_ENC: the ascending linear search for an exact match (R42, R43). An `UNASSIGNED` entry equals no code. -/
def charEnc (a : Alphabet) (c : Byte) : BitVec 6 :=
  indexOrSpace (a.toList.findIdx? fun e => e == some c)

/-- What CHAR_ENC leaves in the datapath: its result `idx` (R42, log 9). -/
def Datapath.ofCharEnc (cfg : Config) (c : Byte) : Datapath :=
  { Datapath.blank with idx := some (charEnc cfg.alphabet c) }

/-- The meaning of CHAR_ENC (R42): no flag and no architectural state is written. -/
def execCharEnc (c : Byte) (s : State) : Host.Outcome State Fault Refusal :=
  .next (s.withDatapath (Datapath.ofCharEnc s.cfg c))

end Sys2Proof.Machine
end

