-- ==== Sys2Proof/Machine/Checksum.lean ====
section
/-! DEFINITION. The Checksum Engine (42_crc24.md R60 to R68): the bit-serial scan of R63. -/

namespace Sys2Proof.Machine

/-- `g[j]`, for j = 0..24 (R62): the bit of `GEN` laid at offset p + j when the scan stands at p. -/
def divisorBit (o : GenOrient) (j : Nat) : Bool :=
  match o with
  | .lsbAtCurrent => Config.gen.getLsbD j
  | .msbAtCurrent => Config.gen.getLsbD (24 - j)

/-- The pattern `g[0..24]` as one value, `g[0]` most significant: the divisor as a conventional MSB-first constant (R62). -/
def divisor : GenOrient → BitVec 25
  | .lsbAtCurrent => Config.gen.reverse
  | .msbAtCurrent => Config.gen

/-- One scan step of R63 at position p: where `W{p}` is 1, `g[j]` is XORed into `W{p+j}` for j = 0..24 at once (DEDUCED equal to
the rule's inner loop, whose 25 bits are disjoint; log 22). -/
def crcStep (o : GenOrient) (w : BitVec 112) (p : Nat) : BitVec 112 :=
  if w.getLsbD (111 - p) then w ^^^ ((divisor o).setWidth 112 <<< (87 - p)) else w

/-- The working buffer after scan positions 0..n-1, in ascending order (R63). -/
def crcScan (o : GenOrient) (w : BitVec 112) : Nat → BitVec 112
  | 0 => w
  | n + 1 => crcStep o (crcScan o w n) n

/-- The initial working buffer: the 88 data bits followed by 24 zero bits (R63). -/
def crcInit (d : BitVec 88) : BitVec 112 := d ++ 0#24

/-- The working buffer after all 88 scan positions (R63). -/
def crcFinal (o : GenOrient) (d : BitVec 88) : BitVec 112 := crcScan o (crcInit d) 88

/-- CRC24: the remainder, W{88} ++ ... ++ W{111} (R61, R63). -/
def crc24 (o : GenOrient) (d : BitVec 88) : BitVec 24 := (crcFinal o d).extractLsb' 0 24

/-- What CRC24 leaves in the datapath: the working buffer and the scan position after the last step (R63, log 9). -/
def Datapath.ofCrc24 (cfg : Config) (d : BitVec 88) : Datapath :=
  { Datapath.blank with w := some (crcFinal cfg.genOrient d), p := some 88 }

/-- `r`, the remainder, read in the datapath's working buffer: "bit positions 88–111" (R63). -/
def Datapath.remainder? (d : Datapath) : Option (BitVec 24) := d.w.map fun w => w.extractLsb' 0 24

/-- The meaning of CRC24 (R61): no flag and no architectural state is written. -/
def execCrc24 (d : BitVec 88) (s : State) : Host.Outcome State Fault Refusal :=
  .next (s.withDatapath (Datapath.ofCrc24 s.cfg d))

end Sys2Proof.Machine
end

