-- ==== Sys2Proof/Machine/FieldPacker.lean ====
section
/-! DEFINITION. The Frame Encoder's pure operations, ID_PACK and ENCODE_FRAME (41_field_packer.md R47 to R53). -/

namespace Sys2Proof.Machine

/-- `IDX[0..7]`: each character's index, lane by lane (R47, R58). -/
def identIndices (a : Alphabet) (id : Ident) : Lanes (BitVec 6) := id.map (charEnc a)

/-- The accumulation of R47: `ACC | (zext_48(IDX[i]) << 6(7-i))` for i = 0..7, from 0. -/
def packIndices (l : Lanes (BitVec 6)) : BitVec 48 :=
  ((((((((0#48 ||| (l.c0.setWidth 48 <<< 42)) ||| (l.c1.setWidth 48 <<< 36)) ||| (l.c2.setWidth 48 <<< 30))
    ||| (l.c3.setWidth 48 <<< 24)) ||| (l.c4.setWidth 48 <<< 18)) ||| (l.c5.setWidth 48 <<< 12))
    ||| (l.c6.setWidth 48 <<< 6)) ||| (l.c7.setWidth 48 <<< 0))

/-- ID_PACK (R47). -/
def idPack (a : Alphabet) (id : Ident) : BitVec 48 := packIndices (identIndices a id)

/-- The 88 data bits, bytes B[0..10]: header (R49), Station Address and Type-Code byte (R50), packed identifier (R51). -/
def frameData (cfg : Config) (df : BitVec 5) (id : Ident) : BitVec 88 :=
  headerByte df cfg.ca ++ cfg.aa ++ cfg.tcb ++ idPack cfg.alphabet id

/-- ENCODE_FRAME (R48): the data bits, then the checksum of them in bytes 11–13 (R52). -/
def encodeFrame (cfg : Config) (df : BitVec 5) (id : Ident) : Frame :=
  frameData cfg df id ++ crc24 cfg.genOrient (frameData cfg df id)

/-- What ID_PACK leaves in the datapath (R47, log 9). -/
def Datapath.ofIdPack (cfg : Config) (id : Ident) : Datapath :=
  { Datapath.blank with
    lanes := (identIndices cfg.alphabet id).map some
    acc := some (idPack cfg.alphabet id) }

/-- What ENCODE_FRAME leaves in the datapath: its buffer B, and the parts of its steps 3 and 4 (R48, log 9). -/
def Datapath.ofEncodeFrame (cfg : Config) (df : BitVec 5) (id : Ident) : Datapath :=
  { Datapath.ofIdPack cfg id with
    buf := some (encodeFrame cfg df id)
    w := some (crcFinal cfg.genOrient (frameData cfg df id))
    p := some 88 }

/-- The meaning of ID_PACK (R47): no flag and no architectural state is written. -/
def execIdPack (id : Ident) (s : State) : Host.Outcome State Fault Refusal :=
  .next (s.withDatapath (Datapath.ofIdPack s.cfg id))

/-- The meaning of ENCODE_FRAME (R48): "It writes no state; the caller commits the result". -/
def execEncodeFrame (df : BitVec 5) (id : Ident) (s : State) : Host.Outcome State Fault Refusal :=
  .next (s.withDatapath (Datapath.ofEncodeFrame s.cfg df id))

end Sys2Proof.Machine
end

