-- ==== Sys2Proof/Machine/Transactions.lean ====
section
/-! DEFINITION. The port transactions RESET, START and NOP, and the block's internal step COMPLETE (41_field_packer.md R54 to
R56, 70_reset_and_hazards.md R87). -/

namespace Sys2Proof.Machine

/-- RESET (R87): PHASE, VALID, FRAME and the captured inputs to their reset values; the datapath holds no value (10_state.md
R23). The constants, the host and the schedule are not the block's state and stay (R87, R23). -/
def execReset (s : State) : Host.Outcome State Fault Refusal :=
  .next ({ s with fb := [] }.dropCapture.enterReset.withDatapath Datapath.blank)

/-- START (R54): accepted in IDLE, dropped in BUSY. -/
def execStart (df : BitVec 5) (id : Ident) (s : State) : Host.Outcome State Fault Refusal :=
  match s.phase with
  | .idle => .next (s.capture df id).enterBusy.drawLatency
  | .busy => .next s

/-- NOP (R56): no state change. -/
def execNop (s : State) : Host.Outcome State Fault Refusal := .next s

/-- COMPLETE (R55), enabled in BUSY: FRAME ← ENCODE_FRAME(DF_C, ID_C), all 14 bytes in this one step with VALID ← 1 and PHASE ←
IDLE (20_memory.md R27). The computation ends here and nothing of its datapath survives it (10_state.md R21). -/
def execComplete (s : State) : Host.Outcome State Fault Refusal :=
  match s.phase with
  | .idle => .refused .completeNotEnabled
  | .busy =>
    match s.captured? with
    | none => .fault .captureNoval
    | some (df, id) =>
      match s.fb.memWrite 0 14 (encodeFrame s.cfg df id) with
      | .error f => .fault f
      | .ok m => .next ({ s with fb := m }.enterReady.withDatapath Datapath.blank)

end Sys2Proof.Machine
end

