-- ==== Sys2Proof/Machine/Dispatch.lean ====
section
/-! DEFINITION. One arm per constructor of `Instr`, each one direct call of its meaning. -/

namespace Sys2Proof.Machine

def exec (i : Instr) (s : State) : Host.Outcome State Fault Refusal :=
  match i with
  | .reset => Sys2Proof.Machine.execReset s
  | .start df id => Sys2Proof.Machine.execStart df id s
  | .nop => Sys2Proof.Machine.execNop s
  | .complete => Sys2Proof.Machine.execComplete s
  | .encodeFrame df id => Sys2Proof.Machine.execEncodeFrame df id s
  | .charEnc c => Sys2Proof.Machine.execCharEnc c s
  | .idPack id => Sys2Proof.Machine.execIdPack id s
  | .crc24 d => Sys2Proof.Machine.execCrc24 d s

end Sys2Proof.Machine
end

