-- ==== Sys2Proof/Machine/HostSide.lean ====
section
/-! DEFINITION. The host agent (60_exceptions.md R78 (1)): its turns, the script lines (30_encoding.md R41), its reads (R71, R85),
the Transmission Lifecycle (R79 to R84) and the display rendering (R86). Every turn drives exactly one port word (R73 (a)). -/

namespace Sys2Proof.Machine

/-- A host turn begins: one act leaves the plan, and the clocks of the model count it (log 4, 15). -/
def State.takeTurn (s : State) (rest : List HostAct) : State :=
  { s with wait := s.wait - 1, host := { s.host with plan := rest, elapsed := s.host.elapsed + 1 } }

/-- The host side replaced; the block is not touched. -/
def State.withHost (s : State) (h : HostSide) : State := { s with host := h }

/-- A turn that drives the port word w (R38, R73). -/
def actDrive (w : PortWord) (s : State) : Host.Outcome State Fault Refusal := exec (decode w) s

/-- A turn in which the host drives no request: `rst` = `start` = 0 (R56). -/
def actNoRequest (s : State) : Host.Outcome State Fault Refusal := exec (decode nopWord) s

/-- The script line START (R41), through the boundary of R59. -/
def actStart (df : Nat) (id : List Byte) (s : State) : Host.Outcome State Fault Refusal :=
  match portInputs df id with
  | .error r => .refused r
  | .ok (d, i) => actDrive (startWord d i) s

/-- The oldest START that an accepted BEGIN still owes, with those after it, where a START would not be lost: in IDLE (R80 step 2,
R85, 70_reset_and_hazards.md R93: only when `valid` = 1, or with no START accepted since RESET, which is what PHASE = IDLE says; the
host knows it from its own words) (log 14). -/
def State.startReady? (s : State) : Option ((BitVec 5 × Ident) × List (BitVec 5 × Ident)) :=
  match s.phase, s.host.startsDue with
  | .idle, c :: later => some (c, later)
  | _, _ => none

/-- A turn in which the host has no other port word to drive: it issues a START that is ready, whose hand-over is due from then on
(R80 steps 2 and 3), and where none is it drives a NOP. -/
def actStartDue (s : State) : Host.Outcome State Fault Refusal :=
  match s.startReady? with
  | none => actNoRequest s
  | some ((d, i), later) =>
    actDrive (startWord d i)
      (s.withHost { s.host with startsDue := later, handOversDue := s.host.handOversDue + 1 })

/-- The script line WAIT (R41): a NOP, and again WAIT next while `valid` reads 0. While it waits, a START that an accepted BEGIN
owes takes the place of the NOP, so that no WAIT holds it up (log 14). -/
def actWait (s : State) : Host.Outcome State Fault Refusal :=
  if s.readValid then actNoRequest s
  else actStartDue (s.withHost { s.host with plan := .wait :: s.host.plan })

/-- A read of a subset of the outputs (20_memory.md R27, R28): only the host's own sample changes. -/
def actRead (sel : ReadSel) (s : State) : Host.Outcome State Fault Refusal :=
  match s.sample sel with
  | .error f => .fault f
  | .ok x => actNoRequest (s.withHost { s.host with seen := x })

/-- A read of one byte of `frame` (R24, R27). -/
def actReadByte (a : Nat) (s : State) : Host.Outcome State Fault Refusal :=
  match s.readPort a 1 with
  | .error f => .fault f
  | .ok b => actNoRequest (s.withHost { s.host with seen := { s.host.seen with byte := some b } })

/-- R80 steps 3 to 5, which the host tries at the start of each of its turns: where hand-overs are due and `valid` reads 1, it
reads `frame` and hands it to the RF collaborator, once for each accepted BEGIN that waits for it. Where none is due, or `valid`
reads 0, it waits (log 13). -/
def State.handOver (s : State) : State :=
  if s.readValid then
    match s.readFrame with
    | .ok f =>
      s.withHost { s.host with
        handed := s.host.handed ++ List.replicate s.host.handOversDue f
        handOversDue := 0 }
    | .error _ => s
  else s

/-- A turn in which the host only polls (R80 step 3), and issues a START that an accepted BEGIN owes (R80 step 2, log 14). -/
def actPoll (s : State) : Host.Outcome State Fault Refusal := actStartDue s

/-- BEGIN: in Transmitting no effect (R81). In Idle, TX ← Transmitting and a START is due with the collaborators' current inputs,
padded to width 8 (R80 steps 1 and 2, R85), which is issued in this very turn where none is due before it and it would not be
lost, and else in a later one (log 14). -/
def actBegin (df : Nat) (text : List Byte) (s : State) : Host.Outcome State Fault Refusal :=
  match s.host.tx with
  | .transmitting => actNoRequest s
  | .idle =>
    match portInputs df (padIdent text) with
    | .error r => .refused r
    | .ok c =>
      actStartDue
        (s.withHost { s.host with tx := .transmitting, startsDue := s.host.startsDue ++ [c], elapsed := 0 })

/-- What a report does to TX (R82, R83): `Done` sets Idle, `Progress(v)` changes nothing. -/
def Tx.after (t : Tx) : Report → Tx
  | .progress _ => t
  | .done => .idle

/-- The tagged form of a report on the single integer channel: `Done` is the value `DONE_SENTINEL`, and only that (R82). -/
def reportOfInt (cfg : Config) (v : Int) : Report :=
  if v = cfg.doneSentinel then .done else .progress v

/-- A report of the RF collaborator (R82, R83). -/
def actReport (r : Report) (s : State) : Host.Outcome State Fault Refusal :=
  actNoRequest (s.withHost { s.host with tx := s.host.tx.after r })

/-- `Timeout` is enabled: `TX_TIMEOUT` is set and that many turns have passed in Transmitting (R84, log 15). -/
def State.timeoutEnabled (s : State) : Bool :=
  match s.cfg.txTimeout with
  | none => false
  | some d => s.host.tx == .transmitting && decide (d ≤ s.host.elapsed)

/-- The step `Timeout`, Transmitting → Idle, where it is enabled; nothing where it is not (R84). -/
def actTimeout (s : State) : Host.Outcome State Fault Refusal :=
  if s.timeoutEnabled then actNoRequest (s.withHost { s.host with tx := .idle }) else actNoRequest s

/-- The host's act of this turn. -/
def runAct (a : HostAct) (s : State) : Host.Outcome State Fault Refusal :=
  match a with
  | .drive w => actDrive w s
  | .start df id => actStart df id s
  | .wait => actWait s
  | .read sel => actRead sel s
  | .readByte a => actReadByte a s
  | .poll => actPoll s
  | .beginTx df text => actBegin df text s
  | .report r => actReport r s
  | .reportInt v => actReport (reportOfInt s.cfg v) s
  | .timeout => actTimeout s

/-- The act of the next host turn and what the plan holds after it: the head of the plan, or, with nothing planned, a poll (log
6). -/
def State.nextAct (s : State) : HostAct × List HostAct :=
  match s.host.plan with
  | [] => (.poll, [])
  | a :: rest => (a, rest)

/-- One hexadecimal digit in the configured letter case (R86). -/
def hexDigit (h : HexCase) (n : BitVec 4) : Char :=
  let k := n.toNat
  if k < 10 then Char.ofNat (0x30 + k)
  else
    match h with
    | .upper => Char.ofNat (0x41 + (k - 10))
    | .lower => Char.ofNat (0x61 + (k - 10))

/-- The six digits of a checksum: FRAME[11] high nibble first, FRAME[13] low nibble last (R86). -/
def hexDigits (h : HexCase) (c : BitVec 24) : List Char :=
  [20, 16, 12, 8, 4, 0].map fun k => hexDigit h (c.extractLsb' k 4)

/-- The display string, a view of CRC_OUT and so recomputed at every COMPLETE (R86, log 25). -/
def State.display (s : State) : Option (List Char) := s.crcOut.map (hexDigits s.cfg.hexCase)

end Sys2Proof.Machine
end

