-- ==== Sys2Proof/Machine/Step.lean ====
section
/-! DEFINITION. One step of the model: one COMPLETE or one host turn, never both (60_exceptions.md R73). -/

namespace Sys2Proof.Machine

/-- In BUSY, once the latency of the encode has run out, the block's own agent moves: COMPLETE (R55, R73, log 5). In every other
state the host moves: it polls `valid` and hands over what is due (60_exceptions.md R80), and then does the next act of its
plan. -/
def step (s : State) : Host.Outcome State Fault Refusal :=
  if s.phase = .busy ∧ s.wait = 0 then exec .complete s
  else runAct s.nextAct.1 (s.handOver.takeTurn s.nextAct.2)

/-- The state in which the very next step is the host turn that drives the port word w: the word is put first in the host's
plan, and the countdown is raised by the one turn it takes, so that COMPLETE does not come before it (log 19). -/
def State.withFetchWord (s : State) (_nbits w : Nat) : State :=
  { s with
    wait := s.wait + 1
    host := { s.host with plan := .drive (BitVec.ofNat 71 w) :: s.host.plan } }

end Sys2Proof.Machine
end

