-- ==== Sys2Proof/Machine/Several.lean ====
section
/-! DEFINITION. Several blocks side by side (20_memory.md R31, 60_exceptions.md R78): each has its own whole state, and they step
in any interleaving. `step` itself is the step of one. -/

namespace Sys2Proof.Machine

/-- Block number k of several takes its step; there is no step of a block that does not exist. DESIGN CHOICE (log 23): a fault or a
refusal of that one step is the outcome of the joint step, so the other blocks do not step on in that joint run; R31, R71 and R78 do
not say what one block's model fault does to the runs of the others. How the latencies of two blocks relate is log 4's choice. -/
def stepOfSeveral : Nat → List State → Option (Host.Outcome (List State) Fault Refusal)
  | _, [] => none
  | 0, s :: rest =>
    match step s with
    | .next t => some (.next (t :: rest))
    | .fault f => some (.fault f)
    | .refused r => some (.refused r)
  | k + 1, s :: rest =>
    match stepOfSeveral k rest with
    | some (.next ts) => some (.next (s :: ts))
    | some (.fault f) => some (.fault f)
    | some (.refused r) => some (.refused r)
    | none => none

end Sys2Proof.Machine
end

