-- ==== Sys2Proof/WellFormed.lean ====
section
/-! DEFINITION. What is well formed. Every term of `Instr` is a legal operation, by its type (30_encoding.md R39: no encoding is
reserved or illegal); what can be wrong is that an operation has no port encoding (R38), or that a host act, whose inputs are
naturals and lists, does not fit the ports (41_field_packer.md R59). A configuration's check is `Config.Legal` (10_state.md
R13). -/

namespace Sys2Proof

/-- The operation is a port transaction: it has a port encoding (30_encoding.md R38). -/
def Instr.OnPort : Instr → Bool
  | .reset => true
  | .start _ _ => true
  | .nop => true
  | .complete => false
  | .encodeFrame _ _ => false
  | .charEnc _ => false
  | .idPack _ => false
  | .crc24 _ => false

/-- The act fits the ports: `df` in 0..31 (R59 (a)), a script's identifier exactly 8 codes (R41, R59 (b)), a text-entry
identifier at most 8 before the host pads it (R59 (b), (c), 60_exceptions.md R85). -/
def Machine.HostAct.WellFormed : Machine.HostAct → Bool
  | .drive _ => true
  | .start df id => decide (df ≤ 31) && decide (id.length = 8)
  | .wait => true
  | .read _ => true
  | .readByte a => decide (a < 14)
  | .poll => true
  | .beginTx df text => decide (df ≤ 31) && decide (text.length ≤ 8)
  | .report _ => true
  | .reportInt _ => true
  | .timeout => true

end Sys2Proof
end

