-- ==== Sys2Proof/Safety.lean ====
section
/-! DEFINITION. What a run may rely on (20_memory.md R29, 10_state.md R17 to R19): the invariant of the machine, in the terms
claims use, and what a host turn needs so as not to stop. -/

namespace Sys2Proof.Machine

/-- It is the host's turn: COMPLETE does not move next (60_exceptions.md R73; the countdown is the model's, log 5). -/
def State.HostsTurn (s : State) : Prop := ¬ (s.phase = .busy ∧ s.wait = 0)

/-- The block and its constants are the same in both states: the host side, the datapath and the countdown may differ. -/
def SameBlock (s t : State) : Prop :=
  t.cfg = s.cfg ∧ t.fb = s.fb ∧ t.valid = s.valid ∧ t.phase = s.phase ∧ t.dfC = s.dfC ∧ t.idC = s.idC

/-- FB holds the encoding of some inputs, under the build's constants. -/
def State.HoldsEncoding (s : State) (df : BitVec 5) (id : Ident) : Prop :=
  s.fb = frameCells (encodeFrame s.cfg df id)

/-- The invariant of the machine. -/
structure State.Inv (s : State) : Prop where
  /-- The build is a legal one (70_reset_and_hazards.md R90). -/
  legal : s.cfg.Legal = true
  /-- FB is in canonical form, inside the 14 addresses that exist (20_memory.md R24). -/
  memory : s.fb.wf
  /-- In BUSY, VALID is 0 and the captured inputs hold values (10_state.md R18, R19). -/
  busy : s.phase = .busy → s.valid = false ∧ ∃ df id, s.captured? = some (df, id)
  /-- VALID = 1 says that FRAME holds the encoding of the inputs captured by the most recent accepted START (R17). -/
  valid : s.valid = true → ∃ df id, s.captured? = some (df, id) ∧ s.HoldsEncoding df id
  /-- IDLE with VALID = 0 is the state after RESET: nothing holds a value (R18, R23). -/
  fresh : s.phase = .idle → s.valid = false → s.fb = [] ∧ s.dfC = none ∧ s.idC = Lanes.fill none
  /-- FRAME never holds a part of a frame (20_memory.md R27). -/
  whole : s.fb = [] ∨ ∃ df id, s.HoldsEncoding df id
  /-- Only encodings are handed over (60_exceptions.md R80). -/
  handed : ∀ f ∈ s.host.handed, ∃ df id, f = encodeFrame s.cfg df id

/-- The host keeps, for this act, the duties of 60_exceptions.md R85 without which a step could stop: inputs that fit the ports,
and reads of `frame` and `crc` only while VALID = 1. (No step stops at a START in BUSY or a RESET during a BEGIN, which R85
forbids too: the block answers them as R54 and R87 say.) -/
def State.KeepsDuties (s : State) (a : HostAct) : Prop :=
  a.WellFormed = true ∧
  match a with
  | .read sel => (sel.frame = true ∨ sel.crc = true) → s.valid = true
  | .readByte _ => s.valid = true
  | _ => True

/-- A safe state: the invariant holds and the host keeps its duties for the act it does next. -/
def State.Safe (s : State) : Prop :=
  s.Inv ∧ ∀ a rest, s.host.plan = a :: rest → s.KeepsDuties a

/-- The act fits the ports, is no RESET, and reads neither `frame`, a byte of it nor `crc`: what a host that keeps its duties of
60_exceptions.md R85 may do while the encode of a START it waits for is under way. -/
def HostAct.KeepsWaiting (a : HostAct) : Prop :=
  a.WellFormed = true ∧
  match a with
  | .drive w => w.getLsbD 70 = false
  | .read sel => sel.frame = false ∧ sel.crc = false
  | .readByte _ => False
  | _ => True

/-- The plan of a host that waits for `valid` before it resets or reads (R85, 30_encoding.md R41): all of it keeps waiting, or
all of it up to a WAIT, after which anything may stand. -/
def PlanWaits (plan : List HostAct) : Prop :=
  ∃ before after, plan = before ++ after ∧ (∀ a ∈ before, a.KeepsWaiting) ∧ (after = [] ∨ ∃ rest, after = .wait :: rest)

end Sys2Proof.Machine
end

