-- ==== Sys2Proof/Certificates/Slice0/Obligations.lean ====
section
/-! DEFINITION. The statements about ADSB-ENC, each formalising the rule of spec/ its docstring names. -/

open Sys2Proof Sys2Proof.Machine

/-- The polynomial over GF(2) whose coefficient of x^i is bit i of v (42_crc24.md R64: offset 0 is the highest degree). -/
noncomputable def Sys2Proof.Machine.bitsPoly {w : Nat} (v : BitVec w) : Polynomial (ZMod 2) :=
  ∑ i ∈ Finset.range w, if v.getLsbD i then Polynomial.X ^ i else 0

/-- G(x) = sum over j in 0..24 of g[j] · x^(24-j) (42_crc24.md R64). -/
noncomputable def Sys2Proof.Machine.generatorPoly (o : GenOrient) : Polynomial (ZMod 2) :=
  ∑ j ∈ Finset.range 25, if divisorBit o j then Polynomial.X ^ (24 - j) else 0

/-! ### Encoding -/

/-- 30_encoding.md R38: every port word decodes to exactly the transaction whose row of the opcode table it matches; COMPLETE has
no port encoding. -/
def Obligations.DecodeFollowsOpcodeTable : Prop :=
  (∀ w : PortWord,
    (w &&& 0x400000000000000000#71 = 0x400000000000000000#71 ↔ decode w = .reset) ∧
    (w &&& 0x600000000000000000#71 = 0x200000000000000000#71 ↔ decode w = .start (portDf w) (portId w)) ∧
    (w &&& 0x600000000000000000#71 = 0#71 ↔ decode w = .nop)) ∧
  encode .complete = none

/-- 30_encoding.md R36: the bits of the port word a START reads, and the rule's example word. -/
def Obligations.StartReadsPortFields : Prop :=
  (∀ (w : PortWord) (df : BitVec 5) (id : Ident), decode w = .start df id →
    w.getLsbD 70 = false ∧ w.getLsbD 69 = true ∧
    (∀ j, j < 5 → df.getLsbD j = w.getLsbD (64 + j)) ∧
    ∀ (i : Fin 8) (j : Nat), j < 8 → (id.get i).getLsbD j = w.getLsbD (56 - 8 * i.val + j)) ∧
  decode 0x314B4C4D3130323320#71 =
    .start 17#5 ⟨0x4B#8, 0x4C#8, 0x4D#8, 0x31#8, 0x30#8, 0x32#8, 0x33#8, 0x20#8⟩

/-- Decode and encode agree, at every value of every operand, for the three port transactions (30_encoding.md R36, R38). -/
def Obligations.DecodeEncode : Prop :=
  ∀ i : Instr, i.OnPort = true → ∃ w, encode i = some w ∧ decode w = i

/-- A START word has one meaning: encoding what it decodes to gives it back, so no bit of it is dropped (R36). -/
def Obligations.EncodeDecodeStart : Prop :=
  ∀ (w : PortWord) (df : BitVec 5) (id : Ident), decode w = .start df id → encode (.start df id) = some w

/-- Words written out in the spec decode to the transactions it names (30_encoding.md R41, 95_test_vectors.md §2.5, §3). -/
def Obligations.SpecWordsDecode : Prop :=
  decode 0x400000000000000000#71 = .reset ∧ decode 0x714B4C4D3130323320#71 = .reset ∧
  decode 0x000000000000000000#71 = .nop ∧
  decode 0x324142434445464748#71 = .start 18#5 ⟨0x41#8, 0x42#8, 0x43#8, 0x44#8, 0x45#8, 0x46#8, 0x47#8, 0x48#8⟩ ∧
  decode 0x3F4B4C4D3130323320#71 = .start 31#5 ⟨0x4B#8, 0x4C#8, 0x4D#8, 0x31#8, 0x30#8, 0x32#8, 0x33#8, 0x20#8⟩

/-- The decode of a number: total on 71 bits, and refused by name above (the model's convention, log 20). -/
def Obligations.NumbersDecode : Prop :=
  ∀ nbits w : Nat,
    (w < 2 ^ 71 → decodeTableWord nbits w = some (decode (BitVec.ofNat 71 w))) ∧
    (2 ^ 71 ≤ w → decodeTableWord nbits w = none ∧ decodeNat w = .error .notAPortWord)

/-! ### Steps -/

/-- A step runs the decoded transaction in the host's turn, and COMPLETE in the block's (R38, R73; whose turn it is rests on the
model's countdown, log 5). What the step adds in the host's turn: `handOver` first, the hand-over of a frame that is due
(60_exceptions.md R80, log 13), and `takeTurn`: the word leaves the plan and the model's clocks count the turn. -/
def Obligations.StepRunsDecodedWord : Prop :=
  (∀ (s : State) (w : PortWord) (rest : List HostAct), s.host.plan = .drive w :: rest → s.HostsTurn →
    step s = exec (decode w) (s.handOver.takeTurn rest)) ∧
  ∀ s : State, s.phase = .busy → s.wait = 0 → step s = exec .complete s

/-- Placing a word for the next step runs it, whatever state the machine is in; besides it the host hands over a frame that is
due, and its turn count moves (log 13, 19). -/
def Obligations.FetchWordRuns : Prop :=
  ∀ (s : State) (nbits w : Nat) (i : Instr), decodeTableWord nbits w = some i →
    step (s.withFetchWord nbits w) = exec i (s.withHost { s.handOver.host with elapsed := s.host.elapsed + 1 })

/-- Every step is exactly one of two kinds: one COMPLETE, or one host turn that drives one port word (R73). Which of the two moves
next is the model's choice (its countdown, log 5): R73 leaves the schedule free. -/
def Obligations.EachStepIsOneOfTwo : Prop :=
  ∀ s t : State, step s = .next t →
    (¬ s.HostsTurn ∧ s.phase = .busy ∧ exec .complete s = .next t) ∨
    (s.HostsTurn ∧ ∃ (w : PortWord) (h : HostSide),
      exec (decode w) ((s.takeTurn s.nextAct.2).withHost h) = .next t)

/-- From a safe state, every step answers: no fault and no refusal for a host that keeps its duties (60_exceptions.md R70,
R85). -/
def Obligations.SafeStepAnswers : Prop :=
  ∀ s : State, s.Safe → ∃ t, step s = .next t

/-! ### Transactions -/

/-- 70_reset_and_hazards.md R87 and 10_state.md R23: RESET. The model's choices in it: the datapath's cells (log 9), the refusal of
a COMPLETE that is not enabled (log 7), and that the countdown and the draw count stay (log 4, 18). -/
def Obligations.ResetResult : Prop :=
  (∀ w : PortWord, w.getLsbD 70 = true → decode w = .reset) ∧
  ∀ s : State, ∃ t, exec .reset s = .next t ∧
    t.phase = .idle ∧ t.valid = false ∧ (∀ a, t.fb.read? a = none) ∧ t.dfC = none ∧ (∀ i, t.idC.get i = none) ∧
    t.dp = Datapath.blank ∧ t.cfg = s.cfg ∧ t.host = s.host ∧ t.wait = s.wait ∧ t.draws = s.draws ∧
    exec .reset t = .next t ∧ exec .complete t = .refused .completeNotEnabled

/-- 41_field_packer.md R54: START, accepted in IDLE and dropped in BUSY. Its frame: FRAME, the constants, the datapath and the
host are unchanged. -/
def Obligations.StartResult : Prop :=
  ∀ (s : State) (df : BitVec 5) (id : Ident),
    (s.phase = .idle → ∃ t, exec (.start df id) s = .next t ∧
      t.dfC = some df ∧ (∀ i, t.idC.get i = some (id.get i)) ∧ t.valid = false ∧ t.phase = .busy ∧
      t.fb = s.fb ∧ t.cfg = s.cfg ∧ t.dp = s.dp ∧ t.host = s.host) ∧
    (s.phase = .busy → exec (.start df id) s = .next s)

/-- 41_field_packer.md R56: NOP changes no state. -/
def Obligations.NopResult : Prop :=
  (∀ w : PortWord, w.getLsbD 70 = false → w.getLsbD 69 = false → decode w = .nop) ∧
  ∀ s : State, exec .nop s = .next s

/-- 41_field_packer.md R55: COMPLETE, in BUSY with the inputs captured: every byte of FRAME at its own address, VALID and PHASE
with it; nothing else of the block's architectural state, the constants or the host is written, and what is no byte of FRAME reads
as before. The model's choices in it: the datapath is blank after it (log 9), the countdown and the draw count stay (log 4). -/
def Obligations.CompleteResult : Prop :=
  ∀ (s : State) (df : BitVec 5) (id : Ident), s.phase = .busy → s.captured? = some (df, id) →
    ∃ t, exec .complete s = .next t ∧
      (∀ i, i < 14 → t.fb.read? i = some (frameByte (encodeFrame s.cfg df id) i)) ∧
      (∀ a, 14 ≤ a → t.fb.read? a = s.fb.read? a) ∧
      t.valid = true ∧ t.phase = .idle ∧ t.dfC = s.dfC ∧ t.idC = s.idC ∧ t.cfg = s.cfg ∧ t.host = s.host ∧
      t.dp = Datapath.blank ∧ t.wait = s.wait ∧ t.draws = s.draws

/-- COMPLETE where it is not enabled (R55), and over a captured cell without a value: the model stops by name (log 7, 8). -/
def Obligations.CompleteStops : Prop :=
  (∀ s : State, exec .complete s = .refused .completeNotEnabled ↔ s.phase = .idle) ∧
  (∀ s : State, exec .complete s = .fault .captureNoval ↔ (s.phase = .busy ∧ s.captured? = none)) ∧
  ∀ s : State, step s ≠ .refused .completeNotEnabled

/-- 60_exceptions.md R70: no operation but COMPLETE has a case that stops, in any state; COMPLETE has none where it is enabled, in
a state that meets the invariant. -/
def Obligations.OperationsNeverFail : Prop :=
  (∀ (i : Instr) (s : State), i ≠ .complete → ∃ t, exec i s = .next t) ∧
  ∀ s : State, s.Inv → s.phase = .busy → ∃ t, exec .complete s = .next t

/-! ### The Character Encoder -/

/-- 40_char_encoder.md R42: the operation's result, its corner cases over a legal alphabet, and its example. That the result stands
in a datapath cell after the operation is the model's choice (log 9; R42: it writes no state). -/
def Obligations.CharEncResult : Prop :=
  (∀ (c : Byte) (s : State), ∃ (d : Datapath) (r : BitVec 6),
    exec (.charEnc c) s = .next (s.withDatapath d) ∧ d.idx = some r ∧
    ((∃ i, i < 64 ∧ s.cfg.alphabet[i]? = some (some c) ∧ (∀ j, j < i → s.cfg.alphabet[j]? ≠ some (some c)) ∧
        r = BitVec.ofNat 6 i) ∨
      ((∀ i : Nat, s.cfg.alphabet[i]? ≠ some (some c)) ∧ r = 32#6))) ∧
  (∀ a : Alphabet, a.Legal = true → charEnc a 0x20#8 = 32#6 ∧ (∀ c, neverAssigned c = true → charEnc a c = 32#6) ∧
    (∀ c d, charEnc a c = charEnc a d → c = d ∨ charEnc a c = 32#6) ∧
    ∀ c, a[(charEnc a c).toNat]? ≠ some none) ∧
  charEnc Alphabet.ref 0x4B#8 = 11#6

/-- 40_char_encoder.md R45 (a), (b), (c), for every legal alphabet. -/
def Obligations.CharEncLaws : Prop :=
  ∀ a : Alphabet, a.Legal = true →
    (∀ (i : Nat) (c : Byte), a[i]? = some (some c) → charEnc a c = BitVec.ofNat 6 i) ∧
    (∀ c : Byte, (∀ i : Nat, a[i]? ≠ some (some c)) → charEnc a c = 32#6) ∧
    ∀ r : BitVec 6, (∃ c, charEnc a c = r) ↔ ∃ c, a[r.toNat]? = some (some c)

/-! ### The Frame Encoder -/

/-- 41_field_packer.md R47: the operation's result and R58's lanes: lane i of ACC is CHAR_ENC(id[i]), whatever the other
characters are. That ACC and IDX stand in the datapath after the operation is the model's choice (log 9; 10_state.md R21: none
survives the computation). -/
def Obligations.IdPackResult : Prop :=
  (∀ (id : Ident) (s : State), ∃ (d : Datapath) (acc : BitVec 48),
    exec (.idPack id) s = .next (s.withDatapath d) ∧ d.acc = some acc ∧
    ∀ i : Fin 8, acc.extractLsb' (42 - 6 * i.val) 6 = charEnc s.cfg.alphabet (id.get i) ∧
      d.lanes.get i = some (charEnc s.cfg.alphabet (id.get i))) ∧
  (∀ (a : Alphabet) (id : Ident), a.Legal = true →
    (∀ i : Fin 8, id.get i = 0x20#8 ∨ ∀ k : Nat, a[k]? ≠ some (some (id.get i))) → idPack a id = 0x820820820820#48) ∧
  idPack Alphabet.ref ⟨0x4B#8, 0x4C#8, 0x4D#8, 0x31#8, 0x30#8, 0x32#8, 0x33#8, 0x20#8⟩ = 0x2CC371C32CE0#48

/-- 41_field_packer.md R49 to R52: the four steps of ENCODE_FRAME, byte by byte, and R48's example. That the frame stands in the
datapath's buffer after the operation is the model's choice (log 9; R48: it writes no state). -/
def Obligations.EncodeFrameResult : Prop :=
  (∀ (df : BitVec 5) (id : Ident) (s : State), ∃ (d : Datapath) (f : Frame),
    exec (.encodeFrame df id) s = .next (s.withDatapath d) ∧ d.buf = some f ∧ f = encodeFrame s.cfg df id ∧
    frameByte f 0 = ((df.setWidth 8 <<< 3) ||| s.cfg.ca.setWidth 8) ∧
    frameByte f 1 = s.cfg.aa.extractLsb' 16 8 ∧ frameByte f 2 = s.cfg.aa.extractLsb' 8 8 ∧
    frameByte f 3 = s.cfg.aa.extractLsb' 0 8 ∧ frameByte f 4 = s.cfg.tcb ∧
    (∀ m, m < 6 → frameByte f (5 + m) = (idPack s.cfg.alphabet id).extractLsb' (40 - 8 * m) 8) ∧
    ∀ m, m < 3 → frameByte f (11 + m) = (crc24 s.cfg.genOrient (f.extractLsb' 24 88)).extractLsb' (16 - 8 * m) 8) ∧
  encodeFrame Config.ref 17#5 ⟨0x4B#8, 0x4C#8, 0x4D#8, 0x31#8, 0x30#8, 0x32#8, 0x33#8, 0x20#8⟩ =
    0x8D4840D6202CC371C32CE0576098#112

/-- 30_encoding.md R32: the fields of every encoded frame by bit offset, the most significant bit of each at its lowest
offset. -/
def Obligations.FrameFieldsByOffset : Prop :=
  ∀ (cfg : Config) (df : BitVec 5) (id : Ident) (f : Frame), f = encodeFrame cfg df id →
    (∀ k, k < 5 → frameBit f k = df.getMsbD k) ∧
    (∀ k, k < 3 → frameBit f (5 + k) = cfg.ca.getMsbD k) ∧
    (∀ k, k < 24 → frameBit f (8 + k) = cfg.aa.getMsbD k) ∧
    (∀ k, k < 8 → frameBit f (32 + k) = cfg.tcb.getMsbD k) ∧
    (∀ (i : Fin 8) (k : Nat), k < 6 → frameBit f (40 + 6 * i.val + k) = (charEnc cfg.alphabet (id.get i)).getMsbD k) ∧
    ∀ k, k < 24 → frameBit f (88 + k) = (crc24 cfg.genOrient (f.extractLsb' 24 88)).getMsbD k

/-- 30_encoding.md R34: the identifier field's byte map. -/
def Obligations.IdentifierByteMap : Prop :=
  ∀ (cfg : Config) (df : BitVec 5) (id : Ident) (f : Frame) (I : Lanes (BitVec 6)),
    f = encodeFrame cfg df id → I = id.map (charEnc cfg.alphabet) →
    frameByte f 5 = I.c0 ++ I.c1.extractLsb' 4 2 ∧
    frameByte f 6 = I.c1.extractLsb' 0 4 ++ I.c2.extractLsb' 2 4 ∧
    frameByte f 7 = I.c2.extractLsb' 0 2 ++ I.c3 ∧
    frameByte f 8 = I.c4 ++ I.c5.extractLsb' 4 2 ∧
    frameByte f 9 = I.c5.extractLsb' 0 4 ++ I.c6.extractLsb' 2 4 ∧
    frameByte f 10 = I.c6.extractLsb' 0 2 ++ I.c7

/-- 00_scope.md R6: the bit at offset k is bit 7 - (k mod 8) of byte k div 8. -/
def Obligations.FrameBitOrder : Prop :=
  ∀ (f : Frame) (k : Nat), k < 112 → frameBit f k = (frameByte f (k / 8)).getLsbD (7 - k % 8)

/-- 41_field_packer.md R59 (b), 40_char_encoder.md R42: a character that no entry of the alphabet holds encodes as a space does, in
any place of the identifier; lowercase letters, control codes and codes from 0x7F up are such characters of every legal
alphabet (10_state.md R13). -/
def Obligations.UnknownCharactersEncodeAsSpace : Prop :=
  ∀ cfg : Config, cfg.Legal = true →
    (∀ (df : BitVec 5) (id id' : Ident),
      (∀ i : Fin 8, id'.get i = id.get i ∨
        ((∀ k : Nat, cfg.alphabet[k]? ≠ some (some (id.get i))) ∧ id'.get i = 0x20#8)) →
      encodeFrame cfg df id' = encodeFrame cfg df id) ∧
    ∀ c : Byte, neverAssigned c = true → ∀ k : Nat, cfg.alphabet[k]? ≠ some (some c)

/-! ### The Checksum Engine -/

/-- 42_crc24.md R60 and R62: the constant, the divisor pattern of either orientation, and the orientation a run starts with. -/
def Obligations.DivisorPatterns : Prop :=
  Config.gen = 0b1001000000101111111111111#25 ∧
  divisor .lsbAtCurrent = 0b1111111111111010000001001#25 ∧ divisor .msbAtCurrent = 0b1001000000101111111111111#25 ∧
  (∀ j, j < 25 → (divisor .lsbAtCurrent).getLsbD (24 - j) = Config.gen.getLsbD j ∧
    (divisor .msbAtCurrent).getLsbD (24 - j) = Config.gen.getLsbD (24 - j)) ∧
  (∀ o j, j < 25 → divisorBit o j = (divisor o).getLsbD (24 - j)) ∧
  State.reset.cfg.genOrient = .lsbAtCurrent

/-- 42_crc24.md R63: the initial buffer, each scan step bit by bit, the buffer after the scan, and the remainder. -/
def Obligations.CrcFollowsScan : Prop :=
  (∀ (d : BitVec 88) (k : Nat), k < 112 →
    (crcInit d).getLsbD (111 - k) = if k < 88 then d.getLsbD (87 - k) else false) ∧
  (∀ (o : GenOrient) (w : BitVec 112) (p k : Nat), p < 88 → k < 112 →
    (crcStep o w p).getLsbD (111 - k) =
      ((w.getLsbD (111 - k)) ^^ (w.getLsbD (111 - p) && decide (p ≤ k ∧ k ≤ p + 24) && divisorBit o (k - p)))) ∧
  (∀ (o : GenOrient) (d : BitVec 88), crcFinal o d = (List.range 88).foldl (crcStep o) (crcInit d)) ∧
  (∀ (o : GenOrient) (d : BitVec 88) (k : Nat), k < 88 → (crcFinal o d).getLsbD (111 - k) = false) ∧
  ∀ (o : GenOrient) (d : BitVec 88) (k : Nat), k < 24 → (crc24 o d).getMsbD k = (crcFinal o d).getLsbD (111 - (88 + k))

/-- 42_crc24.md R61: the operation's result, its corner cases and its example. That the scanned buffer and the remainder stand in
the datapath after the operation is the model's choice (log 9; R67: they exist only during one computation). -/
def Obligations.Crc24Result : Prop :=
  (∀ (d : BitVec 88) (s : State), ∃ x : Datapath, exec (.crc24 d) s = .next (s.withDatapath x) ∧
    x.w = some (crcFinal s.cfg.genOrient d) ∧ x.remainder? = some (crc24 s.cfg.genOrient d)) ∧
  (∀ o, crc24 o 0#88 = 0#24 ∧ crc24 o 1#88 = (divisor o).extractLsb' 0 24) ∧
  crc24 .lsbAtCurrent 1#88 = 0xFFF409#24 ∧ crc24 .msbAtCurrent 1#88 = 0x205FFF#24 ∧
  crc24 .lsbAtCurrent 0x8D4840D6202CC371C32CE0#88 = 0x576098#24

/-- 42_crc24.md R64: the scan computes exactly R(x) = (D(x) · x^24) mod G(x) over GF(2), in both orientations. -/
def Obligations.CrcIsPolynomialRemainder : Prop :=
  ∀ (o : GenOrient) (d : BitVec 88),
    bitsPoly (crc24 o d) = Polynomial.modByMonic (bitsPoly d * Polynomial.X ^ 24) (generatorPoly o) ∧
    (bitsPoly (crc24 o d)).degree < 24 ∧ (generatorPoly o).Monic ∧ (generatorPoly o).natDegree = 24

/-- 42_crc24.md R65: CRC24 is linear over XOR, in both orientations. -/
def Obligations.CrcLinear : Prop :=
  ∀ (o : GenOrient) (a b : BitVec 88), crc24 o (a ^^^ b) = crc24 o a ^^^ crc24 o b ∧ crc24 o 0#88 = 0#24

/-- 42_crc24.md R66: every frame ENCODE_FRAME builds, under any constants, has zero residue. -/
def Obligations.FrameHasZeroResidue : Prop :=
  ∀ (cfg : Config) (df : BitVec 5) (id : Ident),
    Polynomial.modByMonic (bitsPoly (encodeFrame cfg df id)) (generatorPoly cfg.genOrient) = 0

/-! ### State, invariants and what a run may rely on -/

/-- 10_state.md R23: what reset leaves, element by element, and that a RESET does not change the constants or TX. -/
def Obligations.ResetStateValues : Prop :=
  State.reset.phase = .idle ∧ State.reset.valid = false ∧ (∀ a, State.reset.fb.read? a = none) ∧
  State.reset.crcOut = none ∧ State.reset.dfC = none ∧ (∀ i, State.reset.idC.get i = none) ∧
  State.reset.dp = Datapath.blank ∧ State.reset.host.tx = .idle ∧
  ∀ s t : State, exec .reset s = .next t → t.cfg = s.cfg ∧ t.host.tx = s.host.tx

/-- The invariant holds at reset. -/
def Obligations.ResetInvariant : Prop := State.reset.Inv

/-- Every step keeps the invariant: the canonical form of FB, the build's legality, and what VALID and PHASE say of FRAME and of
the captured inputs (10_state.md R16 to R19, 20_memory.md R27, R29). -/
def Obligations.StepKeepsInvariant : Prop :=
  ∀ s t : State, s.Inv → step s = .next t → t.Inv

/-- 20_memory.md R29 (2): when `valid` reads 1, `frame` and `crc` hold the encoding of the captured inputs. -/
def Obligations.ValidOutputsAreTheEncoding : Prop :=
  ∀ s : State, s.Inv → s.valid = true → ∃ df id, s.captured? = some (df, id) ∧
    s.readFrame = .ok (encodeFrame s.cfg df id) ∧
    s.readCrc = .ok (crc24 s.cfg.genOrient (frameData s.cfg df id))

/-- 20_memory.md R29 (3): FRAME changes only at COMPLETE and at a RESET transaction. -/
def Obligations.FrameChangesOnlyAtCompleteOrReset : Prop :=
  ∀ s t : State, step s = .next t → t.fb ≠ s.fb →
    (¬ s.HostsTurn ∧ exec .complete s = .next t) ∨
    (t.fb = [] ∧ ∃ w rest, s.host.plan = .drive w :: rest ∧ w.getLsbD 70 = true)

/-- 10_state.md R15: no operation and no step writes a build-time constant. -/
def Obligations.ConstantsNeverWritten : Prop :=
  (∀ (i : Instr) (s t : State), exec i s = .next t → t.cfg = s.cfg) ∧
  ∀ s t : State, step s = .next t → t.cfg = s.cfg

/-- 41_field_packer.md R53, 70_reset_and_hazards.md R92: the frame COMPLETE commits is decided by the captured inputs and the
constants alone: no earlier frame, no host input and no host state enters it. -/
def Obligations.CapturedInputsDecideTheFrame : Prop :=
  ∀ s s' t t' : State, s.cfg = s'.cfg → s.captured? = s'.captured? →
    exec .complete s = .next t → exec .complete s' = .next t' → ∀ a, a < 14 → t.fb.read? a = t'.fb.read? a

/-- 10_state.md R21: the internal datapath is not observable: whatever it holds, a step does the same to everything else and ends
alike, and the output ports read alike. -/
def Obligations.DatapathNotObserved : Prop :=
  ∀ (s : State) (d : Datapath),
    (∀ t, step s = .next t → ∃ e, step (s.withDatapath d) = .next (t.withDatapath e)) ∧
    (∀ f, step s = .fault f → step (s.withDatapath d) = .fault f) ∧
    (∀ r, step s = .refused r → step (s.withDatapath d) = .refused r) ∧
    ∀ k, (s.withDatapath d).outBit k = s.outBit k

/-- 70_reset_and_hazards.md R94, 60_exceptions.md R73: an accepted encode completes, whatever its latency is, with a host that
waits for `valid` before it resets or reads (R85): script STARTs, WAITs, NOPs, polls, BEGINs, reports, timeouts and reads of `valid`
may come before. -/
def Obligations.EncodeCompletes : Prop :=
  ∀ (s : State) (df : BitVec 5) (id : Ident), s.Inv → s.phase = .busy → s.captured? = some (df, id) →
    PlanWaits s.host.plan →
    ∃ t : State, Host.Core.run Sys2Proof.core (s.wait + 1) s = .next t ∧ t.phase = .idle ∧ t.valid = true ∧
      t.cfg = s.cfg ∧ ∀ i, i < 14 → t.fb.read? i = some (frameByte (encodeFrame s.cfg df id) i)

/-! ### Memory and outputs -/

/-- `MemWrite` then `MemRead` (00_scope.md R9, 20_memory.md R24): the value comes back, every other byte is left alone, the
canonical form is kept; outside the 14 addresses both fault. -/
def Obligations.MemWriteThenRead : Prop :=
  ∀ (m : Memory) (a n : Nat) (v : BitVec (8 * n)),
    (a + n ≤ 14 → ∃ m', m.memWrite a n v = .ok m' ∧ m'.memRead a n = .ok v ∧
      (∀ b, b < a ∨ a + n ≤ b → m'.read? b = m.read? b) ∧ (m.wf → m'.wf)) ∧
    (14 < a + n → m.memWrite a n v = .error .noSuchAddress ∧ m.memRead a n = .error .noSuchAddress)

/-- 10_state.md R20: CRC_OUT is FRAME[11] ++ FRAME[12] ++ FRAME[13], and holds no value whenever one of them holds none. -/
def Obligations.CrcOutIsAView : Prop :=
  ∀ s : State,
    (∀ b11 b12 b13 : Byte, s.fb.read? 11 = some b11 → s.fb.read? 12 = some b12 → s.fb.read? 13 = some b13 →
      s.crcOut = some (b11 ++ b12 ++ b13)) ∧
    ((s.fb.read? 11 = none ∨ s.fb.read? 12 = none ∨ s.fb.read? 13 = none) → s.crcOut = none)

/-- 30_encoding.md R37: the output port word, bit by bit, and whole where FRAME holds a frame. -/
def Obligations.OutputWordLayout : Prop :=
  ∀ s : State,
    (∀ i j, i < 14 → j < 8 → s.outBit (25 + 8 * (13 - i) + j) = (s.fb.read? i).map fun b => b.getLsbD j) ∧
    (∀ j, j < 24 → s.outBit (1 + j) = s.crcOut.map fun c => c.getLsbD j) ∧
    s.outBit 0 = some s.valid ∧
    ∀ f : Frame, s.fb = frameCells f → ∃ o, s.outWord = some o ∧ o = f ++ f.extractLsb' 0 24 ++ BitVec.ofBool s.valid ∧
      ∀ k, k < 137 → s.outBit k = some (o.getLsbD k)

/-- 60_exceptions.md R71: `READ_NOT_VALID`. A read of `frame` or `crc` while VALID = 0 faults, and a run stops there for good; a read
of a byte of `frame` while VALID = 0 faults; reading `valid` alone never faults; VALID = 0 wherever FRAME holds `NOVAL`, and in BUSY.
That a read takes a host turn, that its sample is recorded in `host.seen`, and that the fault is the outcome of the run are log 11's;
whose turn it is, log 5's. -/
def Obligations.ReadNotValidFaults : Prop :=
  (∀ (s : State) (sel : ReadSel) (rest : List HostAct), s.host.plan = .read sel :: rest → s.HostsTurn →
    s.valid = false → (sel.frame = true ∨ sel.crc = true) →
    step s = .fault .readNotValid ∧ ∀ k, Host.Core.run Sys2Proof.core (k + 1) s = .fault Fault.readNotValid) ∧
  (∀ (s : State) (a : Nat) (rest : List HostAct), s.host.plan = .readByte a :: rest → s.HostsTurn → s.valid = false →
    step s = .fault .readNotValid) ∧
  (∀ (s : State) (rest : List HostAct), s.host.plan = .read { valid := true } :: rest → s.HostsTurn →
    ∃ t, step s = .next t ∧ t.host.seen.valid = some s.valid ∧ SameBlock s t) ∧
  ∀ s : State, s.Inv → ((∃ a, a < 14 ∧ s.fb.read? a = none) ∨ s.phase = .busy) → s.valid = false

/-- 20_memory.md R28: a read of any subset of the outputs while VALID = 1 gives their values and changes no state of the block;
every read that answers leaves the block as it was; and the values stay the same over every step that is neither a COMPLETE nor a
RESET (a START takes `valid` away, and with it the reads, R71, until the COMPLETE). That a read takes a host turn and is recorded on
the host's side is log 11's, whose turn it is log 5's. -/
def Obligations.ReadsHaveNoSideEffect : Prop :=
  (∀ (s : State) (sel : ReadSel) (rest : List HostAct) (f : Frame), s.Inv → s.valid = true → s.frameOut = some f →
    s.host.plan = .read sel :: rest →
    ∃ t, step s = .next t ∧ SameBlock s t ∧ t.host.plan = rest ∧ t.host.tx = s.host.tx ∧
      t.host.seen.frame = (if sel.frame then some f else s.host.seen.frame) ∧
      t.host.seen.crc = (if sel.crc then some (f.extractLsb' 0 24) else s.host.seen.crc) ∧
      t.host.seen.valid = (if sel.valid then some true else s.host.seen.valid) ∧
      t.host.seen.byte = s.host.seen.byte) ∧
  (∀ (s t : State) (a : HostAct) (rest : List HostAct), s.host.plan = a :: rest → s.HostsTurn →
    ((∃ sel, a = .read sel) ∨ ∃ n, a = .readByte n) → step s = .next t →
    SameBlock s t ∧ t.dp = s.dp ∧ t.host.tx = s.host.tx) ∧
  ∀ s t : State, s.HostsTurn → (∀ w rest, s.host.plan = .drive w :: rest → w.getLsbD 70 = false) → step s = .next t →
    t.frameOut = s.frameOut ∧ t.crcOut = s.crcOut ∧
    (s.valid = true → t.valid = true → t.readFrame = s.readFrame ∧ t.readCrc = s.readCrc ∧
      ∀ a, t.readPort a 1 = s.readPort a 1)

/-- 20_memory.md R24, R27: a host read of one byte while VALID = 1 gives that byte of FRAME and leaves the block as it was; a byte
address from 14 up does not exist, and the model faults there (log 12). -/
def Obligations.HostByteReads : Prop :=
  ∀ (s : State) (a : Nat) (rest : List HostAct), s.Inv → s.valid = true → s.host.plan = .readByte a :: rest →
    (a < 14 → ∃ (b : Byte) (t : State), s.fb.read? a = some b ∧ step s = .next t ∧ t.host.seen.byte = some b ∧
      SameBlock s t ∧ t.host.plan = rest) ∧
    (14 ≤ a → step s = .fault .noSuchAddress)

/-- 60_exceptions.md R86: the six digits the display shows, byte 11 first, high nibble first, and which character each nibble gives
in each letter case (that the string is a view of CRC_OUT is the model's choice, log 25). -/
def Obligations.DisplayDigits : Prop :=
  (∀ (s : State) (b11 b12 b13 : Byte),
    s.fb.read? 11 = some b11 → s.fb.read? 12 = some b12 → s.fb.read? 13 = some b13 →
    s.display = some ([b11.extractLsb' 4 4, b11.extractLsb' 0 4, b12.extractLsb' 4 4, b12.extractLsb' 0 4,
      b13.extractLsb' 4 4, b13.extractLsb' 0 4].map (hexDigit s.cfg.hexCase))) ∧
  (∀ n : BitVec 4, ['0', '1', '2', '3', '4', '5', '6', '7', '8', '9', 'A', 'B', 'C', 'D', 'E', 'F'][n.toNat]? =
    some (hexDigit .upper n)) ∧
  ∀ n : BitVec 4, ['0', '1', '2', '3', '4', '5', '6', '7', '8', '9', 'a', 'b', 'c', 'd', 'e', 'f'][n.toNat]? =
    some (hexDigit .lower n)

/-! ### The host side -/

/-- 41_field_packer.md R59 (a), (b), (c): the boundary refuses a `df` above 31 and an identifier that is not 8 codes, and drives
exactly the START of every other. The names of the refusals, and that `df` is looked at first, are log 16's (DEDUCED); that the turn
of the START begins with the hand-over of a frame that is due is log 13's (DESIGN CHOICE). -/
def Obligations.BoundaryRefusesOrStarts : Prop :=
  ∀ (s : State) (df : Nat) (id : List Byte) (rest : List HostAct), s.host.plan = .start df id :: rest → s.HostsTurn →
    (31 < df → step s = .refused .dfOutOfRange) ∧
    (df ≤ 31 → id.length ≠ 8 → step s = .refused .identifierLength) ∧
    (df ≤ 31 → id.length = 8 → ∃ i : Ident, (∀ k : Fin 8, id[k.val]? = some (i.get k)) ∧
      step s = exec (.start (BitVec.ofNat 5 df) i) (s.handOver.takeTurn rest))

/-- 30_encoding.md R41: WAIT is a NOP, repeated until `valid` reads 1 (the turn's hand-over of a frame that is due comes first, log
13). Where a START that an accepted BEGIN owes may be issued, it takes the place of the NOP (log 14; see `DueStartIsIssued`). -/
def Obligations.WaitRepeatsNop : Prop :=
  ∀ (s : State) (rest : List HostAct), s.host.plan = .wait :: rest → s.HostsTurn →
    (s.valid = true → step s = .next (s.handOver.takeTurn rest)) ∧
    (s.valid = false → s.phase = .busy ∨ s.host.startsDue = [] → step s = .next (s.takeTurn (.wait :: rest)))

/-- 60_exceptions.md R80 steps 1 and 2, R85: a BEGIN in Idle sets TX in its turn, whatever the block does, and owes the START of its
`df` and its text, padded by spaces. In IDLE the turn issues the oldest START that is due, which is its own where no other is; in
BUSY, where a START would be lost (R93), it is issued later (log 14). -/
def Obligations.BeginInIdle : Prop :=
  ∀ (s : State) (df : Nat) (text : List Byte) (rest : List HostAct), s.host.plan = .beginTx df text :: rest →
    s.HostsTurn → s.host.tx = .idle → df ≤ 31 → text.length ≤ 8 →
    ∃ (id : Ident) (t : State), (∀ i : Fin 8, id.get i = text.getD i.val 0x20#8) ∧ step s = .next t ∧
      t.host.tx = .transmitting ∧ t.host.elapsed = 0 ∧ t.host.handed = s.handOver.host.handed ∧ t.host.plan = rest ∧
      t.fb = s.fb ∧ t.cfg = s.cfg ∧ t.phase = .busy ∧
      (s.phase = .idle → ∃ c later, s.host.startsDue ++ [(BitVec.ofNat 5 df, id)] = c :: later ∧
        t.captured? = some c ∧ t.valid = false ∧ t.host.startsDue = later ∧
        t.host.handOversDue = s.handOver.host.handOversDue + 1) ∧
      (s.phase = .busy → t.captured? = s.captured? ∧ t.valid = s.valid ∧
        t.host.startsDue = s.host.startsDue ++ [(BitVec.ofNat 5 df, id)] ∧
        t.host.handOversDue = s.handOver.host.handOversDue)

/-- 60_exceptions.md R80 step 2, R85, 70_reset_and_hazards.md R93: the START that an accepted BEGIN still owes. A turn in which the
host only polls, has nothing planned, or waits while `valid` reads 0 issues the oldest one in IDLE, where it is accepted; in BUSY,
and where none is due, such a turn drives a NOP. (Which turns issue it is the model's choice, log 14.) -/
def Obligations.DueStartIsIssued : Prop :=
  ∀ (s : State) (after : List HostAct), s.HostsTurn →
    (s.host.plan = [] ∧ after = [] ∨ s.host.plan = .poll :: after ∨
      ∃ rest, s.host.plan = .wait :: rest ∧ after = .wait :: rest ∧ s.valid = false) →
    (∀ c later, s.phase = .idle → s.host.startsDue = c :: later →
      ∃ t, step s = .next t ∧ t.captured? = some c ∧ t.phase = .busy ∧ t.valid = false ∧ t.fb = s.fb ∧ t.cfg = s.cfg ∧
        t.host.startsDue = later ∧ t.host.handOversDue = s.handOver.host.handOversDue + 1 ∧ t.host.tx = s.host.tx ∧
        t.host.handed = s.handOver.host.handed ∧ t.host.plan = after) ∧
    (s.phase = .busy ∨ s.host.startsDue = [] → step s = .next (s.handOver.takeTurn after))

/-- 41_field_packer.md R59 (a), (c), 60_exceptions.md R85: the boundary of a BEGIN in Idle refuses a `df` above 31 and a text of
more than 8 codes, which no padding makes fit (log 16). -/
def Obligations.BeginBoundary : Prop :=
  ∀ (s : State) (df : Nat) (text : List Byte) (rest : List HostAct), s.host.plan = .beginTx df text :: rest →
    s.HostsTurn → s.host.tx = .idle →
    (31 < df → step s = .refused .dfOutOfRange) ∧
    (df ≤ 31 → 8 < text.length → step s = .refused .identifierLength)

/-- 60_exceptions.md R81: a BEGIN in Transmitting has no effect: its turn drives a NOP and only the turn is taken (`handOver`, at the
start of every host turn, is the hand-over that an EARLIER accepted BEGIN may owe, log 13). -/
def Obligations.BeginInTransmitting : Prop :=
  ∀ (s : State) (df : Nat) (text : List Byte) (rest : List HostAct), s.host.plan = .beginTx df text :: rest →
    s.HostsTurn → s.host.tx = .transmitting → step s = .next (s.handOver.takeTurn rest)

/-- 60_exceptions.md R82, R83: `Done`, and on the integer channel the sentinel and only it, sets TX to Idle; any other report
leaves TX unchanged. The block is not touched. That a tagged `Progress(v)` changes nothing where v is the sentinel's value too is the
model's reading (log 17, DEDUCED; 93_implementation_defined.md I18). -/
def Obligations.ReportsMoveTx : Prop :=
  ∀ (s : State) (rest : List HostAct), s.HostsTurn →
    (s.host.plan = .report .done :: rest → ∃ t, step s = .next t ∧ t.host.tx = .idle ∧ SameBlock s t) ∧
    (∀ v, s.host.plan = .report (.progress v) :: rest →
      ∃ t, step s = .next t ∧ t.host.tx = s.host.tx ∧ SameBlock s t) ∧
    (∀ v, s.host.plan = .reportInt v :: rest → ∃ t, step s = .next t ∧ SameBlock s t ∧
      t.host.tx = if v = s.cfg.doneSentinel then .idle else s.host.tx)

/-- 60_exceptions.md R80 steps 3 to 5, R85: once per accepted BEGIN. A hand-over gives FRAME as the host reads it, once for each
accepted BEGIN that waits for it, where `valid` is 1, and else waits; every step keeps the account: frames handed over, hand-overs due
and STARTs due grow together by one where the step accepts a BEGIN (TX from Idle to Transmitting) and by nothing where it does not; a
hand-over becomes due only where a START is issued in IDLE; and the first host turn with `valid` = 1 hands over, whatever act is
planned. That the host polls at the start of each of its turns, also with nothing planned, is the model's choice (log 6, 13), as is
when a START that is due is issued, and that two BEGINs can wait for one frame, after a RESET (log 14). -/
def Obligations.HandOverOnce : Prop :=
  (∀ s : State, s.Inv →
    (s.valid = true → ∃ f, s.frameOut = some f ∧ s.handOver = s.withHost { s.host with
      handed := s.host.handed ++ List.replicate s.host.handOversDue f, handOversDue := 0 }) ∧
    (s.host.handOversDue = 0 ∨ s.valid = false → s.handOver = s)) ∧
  (∀ s t : State, step s = .next t →
    t.host.handed.length + t.host.handOversDue + t.host.startsDue.length =
      s.host.handed.length + s.host.handOversDue + s.host.startsDue.length +
        (if s.host.tx = .idle ∧ t.host.tx = .transmitting then 1 else 0)) ∧
  (∀ s t : State, step s = .next t → s.host.tx = .idle → t.host.tx = .transmitting →
    s.HostsTurn ∧ ∃ df text rest, s.host.plan = .beginTx df text :: rest) ∧
  (∀ s t : State, step s = .next t → t.host.handed ≠ s.host.handed →
    s.HostsTurn ∧ 0 < s.host.handOversDue ∧ s.valid = true ∧
      (∃ f, s.frameOut = some f ∧ t.host.handed = s.host.handed ++ List.replicate s.host.handOversDue f) ∧
      (t.host.handOversDue = 0 ∨ (t.host.handOversDue = 1 ∧ s.phase = .idle ∧ t.phase = .busy))) ∧
  (∀ s t : State, s.Inv → s.valid = true → step s = .next t →
    ∃ f, s.frameOut = some f ∧ t.host.handed = s.host.handed ++ List.replicate s.host.handOversDue f) ∧
  ∀ (s : State) (rest : List HostAct), s.Inv → s.valid = true → s.host.startsDue = [] →
    (s.host.plan = [] ∧ rest = [] ∨ s.host.plan = .poll :: rest) →
    ∃ (f : Frame) (t : State), s.frameOut = some f ∧ step s = .next t ∧
      t.host.handed = s.host.handed ++ List.replicate s.host.handOversDue f ∧
      t.host.handOversDue = 0 ∧ t.host.plan = rest ∧ SameBlock s t

/-- 60_exceptions.md R80: a BEGIN accepted in Idle and IDLE, with no START due before its own, leads, whatever the latency is, to the
hand-over of the frame that encodes ITS inputs, padded by spaces, once, with a host that waits for `valid` before it resets or reads
(R85). Before it no other frame is handed over, but for those due in the very turn that accepts it (log 13, 14). -/
def Obligations.BeginHandsOverItsFrame : Prop :=
  ∀ (s : State) (df : Nat) (text : List Byte) (rest : List HostAct), s.Inv → s.host.plan = .beginTx df text :: rest →
    s.host.tx = .idle → s.phase = .idle → s.host.startsDue = [] → (s.host.handOversDue = 0 ∨ s.valid = true) →
    df ≤ 31 → text.length ≤ 8 → PlanWaits rest →
    ∃ (id : Ident) (k : Nat) (t : State), (∀ i : Fin 8, id.get i = text.getD i.val 0x20#8) ∧
      Host.Core.run Sys2Proof.core k s = .next t ∧
      t.host.handed = s.handOver.host.handed ++ [encodeFrame s.cfg (BitVec.ofNat 5 df) id]

/-- 60_exceptions.md R80, R85: with a host that only polls, every accepted BEGIN is served. While an encode is under way, `valid` is
1, a START is due or no hand-over is, some run issues every START that is due and makes every hand-over, one for each: from IDLE with
no hand-over due, the frames of the STARTs in their order. Otherwise, where a RESET has cancelled the encode that a hand-over waits
for and no START is due, the host waits forever, as R85 says. (The order and the turns are log 13's and 14's.) -/
def Obligations.AcceptedBeginsAreServed : Prop :=
  (∀ s : State, s.Inv → s.host.plan = [] →
    (s.phase = .busy ∨ s.valid = true ∨ s.host.startsDue ≠ [] ∨ s.host.handOversDue = 0) →
    ∃ (k : Nat) (t : State), Host.Core.run Sys2Proof.core k s = .next t ∧ t.host.startsDue = [] ∧
      t.host.handOversDue = 0 ∧
      t.host.handed.length = s.host.handed.length + s.host.handOversDue + s.host.startsDue.length ∧
      (s.phase = .idle → s.host.handOversDue = 0 →
        t.host.handed = s.host.handed ++ s.host.startsDue.map fun c => encodeFrame s.cfg c.1 c.2)) ∧
  ∀ (k : Nat) (s t : State), s.host.plan = [] → s.phase = .idle → s.valid = false → s.host.startsDue = [] →
    Host.Core.run Sys2Proof.core k s = .next t →
    t.host.handed = s.host.handed ∧ t.host.handOversDue = s.host.handOversDue ∧ SameBlock s t

/-- 60_exceptions.md R84: with no timeout and no `Done`, TX stays Transmitting along every run: the hang is kept. -/
def Obligations.TransmissionHangs : Prop :=
  ∀ (k : Nat) (s t : State), s.host.tx = .transmitting → s.cfg.txTimeout = none →
    (∀ a ∈ s.host.plan, a ≠ .report .done ∧ a ≠ .reportInt s.cfg.doneSentinel) →
    Host.Core.run Sys2Proof.core k s = .next t → t.host.tx = .transmitting

/-- 60_exceptions.md R84: the step `Timeout` exists only where `TX_TIMEOUT` is set, and is enabled only after that duration (in
host turns: the model's unit, log 15). -/
def Obligations.TimeoutOnlyWhereSet : Prop :=
  ∀ (s : State) (rest : List HostAct), s.host.plan = .timeout :: rest → s.HostsTurn →
    ∃ t, step s = .next t ∧ SameBlock s t ∧
      ((s.host.tx = .transmitting ∧ ∃ d, s.cfg.txTimeout = some d ∧ d ≤ s.host.elapsed + 1) → t.host.tx = .idle) ∧
      ((s.cfg.txTimeout = none ∨ ∃ d, s.cfg.txTimeout = some d ∧ s.host.elapsed + 1 < d) → t.host.tx = s.host.tx)

/-- 20_memory.md R31: blocks side by side share no state: one's step is its own step and leaves every other as it was. -/
def Obligations.BlocksShareNothing : Prop :=
  ∀ (k : Nat) (l l' : List State), stepOfSeveral k l = some (.next l') →
    (∀ j, j ≠ k → l'[j]? = l[j]?) ∧ ∃ s t, l[k]? = some s ∧ step s = .next t ∧ l'[k]? = some t
end

