-- ==== Sys2Proof/Laws/Encoding.lean ====
section
/-! SUPPORT. The bits of the words the encoder writes (30_encoding.md R36). -/

namespace Sys2Proof

/-- Every bit of a START word: `id[7]` in bits 7:0, up to `id[0]` in 63:56, `df` in 68:64, `start` at 69, `rst` at 70. -/
theorem getLsbD_startWord (df : BitVec 5) (id : Ident) (i : Nat) :
    (startWord df id).getLsbD i =
      if i < 8 then id.c7.getLsbD i
      else if i < 16 then id.c6.getLsbD (i - 8)
      else if i < 24 then id.c5.getLsbD (i - 16)
      else if i < 32 then id.c4.getLsbD (i - 24)
      else if i < 40 then id.c3.getLsbD (i - 32)
      else if i < 48 then id.c2.getLsbD (i - 40)
      else if i < 56 then id.c1.getLsbD (i - 48)
      else if i < 64 then id.c0.getLsbD (i - 56)
      else if i < 69 then df.getLsbD (i - 64)
      else decide (i = 69) := by
  have h : (startWord df id).getLsbD i = BitVec.getLsbD (w := 1 + 1 + 5 + 8 + 8 + 8 + 8 + 8 + 8 + 8 + 8)
      (0#1 ++ 1#1 ++ df ++ id.c0 ++ id.c1 ++ id.c2 ++ id.c3 ++ id.c4 ++ id.c5 ++ id.c6 ++ id.c7) i := rfl
  rw [h]
  repeat rw [BitVec.getLsbD_append]
  simp only [Nat.sub_sub, Nat.reduceAdd, show (i - 8 < 8) = (i < 16) from propext (by omega),
    show (i - 16 < 8) = (i < 24) from propext (by omega), show (i - 24 < 8) = (i < 32) from propext (by omega),
    show (i - 32 < 8) = (i < 40) from propext (by omega), show (i - 40 < 8) = (i < 48) from propext (by omega),
    show (i - 48 < 8) = (i < 56) from propext (by omega), show (i - 56 < 8) = (i < 64) from propext (by omega),
    show (i - 64 < 5) = (i < 69) from propext (by omega), show (i - 69 < 1) = (i < 70) from propext (by omega)]
  by_cases h69 : i < 69
  · simp only [h69, if_true]
  · by_cases h70 : i = 69
    · subst h70; simp
    · simp [h69, h70, show ¬ i < 70 by omega]

end Sys2Proof
end

