-- ==== Sys2Proof/Laws/Frame.lean ====
section
/-! SUPPORT. The bits of what the Frame Encoder computes: the packed identifier as a concatenation (41_field_packer.md R47) and
every bit of an encoded frame by field (30_encoding.md R32). -/

namespace Sys2Proof.Machine

/-- The OR of the shifted indices is their concatenation (R47, R57: the operands are disjoint). -/
theorem packIndices_eq_append (l : Lanes (BitVec 6)) :
    packIndices l = l.c0 ++ l.c1 ++ l.c2 ++ l.c3 ++ l.c4 ++ l.c5 ++ l.c6 ++ l.c7 := by
  apply BitVec.eq_of_getLsbD_eq
  intro i hi
  have h : BitVec.getLsbD (w := 48) (l.c0 ++ l.c1 ++ l.c2 ++ l.c3 ++ l.c4 ++ l.c5 ++ l.c6 ++ l.c7) i =
      BitVec.getLsbD (w := 6 + 6 + 6 + 6 + 6 + 6 + 6 + 6)
        (l.c0 ++ l.c1 ++ l.c2 ++ l.c3 ++ l.c4 ++ l.c5 ++ l.c6 ++ l.c7) i := rfl
  rw [h]
  repeat rw [BitVec.getLsbD_append]
  simp only [packIndices, BitVec.getLsbD_or, BitVec.getLsbD_shiftLeft, BitVec.getLsbD_setWidth, BitVec.getLsbD_zero,
    Nat.sub_sub, Nat.reduceAdd, hi, decide_true, Bool.true_and, Bool.false_or, Nat.sub_zero]
  have low : ∀ (x : BitVec 6) (n : Nat), 6 ≤ n → x.getLsbD n = false := fun x n hn => BitVec.getLsbD_of_ge x n hn
  by_cases h0 : i < 6
  · simp [h0, show i < 12 by omega, show i < 18 by omega, show i < 24 by omega, show i < 30 by omega,
      show i < 36 by omega, show i < 42 by omega]
  by_cases h1 : i < 12
  · simp [h0, h1, show i < 18 by omega, show i < 24 by omega, show i < 30 by omega, show i < 36 by omega,
      show i < 42 by omega, show i - 6 < 6 by omega, low l.c7 i (by omega), show i - 6 < 48 by omega]
  by_cases h2 : i < 18
  · simp [h0, h1, h2, show i < 24 by omega, show i < 30 by omega, show i < 36 by omega, show i < 42 by omega,
      show ¬ i - 6 < 6 by omega, show i - 12 < 6 by omega, low l.c7 i (by omega), low l.c6 (i - 6) (by omega),
      show i - 12 < 48 by omega]
  by_cases h3 : i < 24
  · simp [h0, h1, h2, h3, show i < 30 by omega, show i < 36 by omega, show i < 42 by omega, show ¬ i - 6 < 6 by omega,
      show ¬ i - 12 < 6 by omega, show i - 18 < 6 by omega, low l.c7 i (by omega), low l.c6 (i - 6) (by omega),
      low l.c5 (i - 12) (by omega), show i - 18 < 48 by omega]
  by_cases h4 : i < 30
  · simp [h0, h1, h2, h3, h4, show i < 36 by omega, show i < 42 by omega, show ¬ i - 6 < 6 by omega,
      show ¬ i - 12 < 6 by omega, show ¬ i - 18 < 6 by omega, show i - 24 < 6 by omega, low l.c7 i (by omega),
      low l.c6 (i - 6) (by omega), low l.c5 (i - 12) (by omega), low l.c4 (i - 18) (by omega),
      show i - 24 < 48 by omega]
  by_cases h5 : i < 36
  · simp [h0, h1, h2, h3, h4, h5, show i < 42 by omega, show ¬ i - 6 < 6 by omega, show ¬ i - 12 < 6 by omega,
      show ¬ i - 18 < 6 by omega, show ¬ i - 24 < 6 by omega, show i - 30 < 6 by omega, low l.c7 i (by omega),
      low l.c6 (i - 6) (by omega), low l.c5 (i - 12) (by omega), low l.c4 (i - 18) (by omega),
      low l.c3 (i - 24) (by omega), show i - 30 < 48 by omega]
  by_cases h6 : i < 42
  · simp [h0, h1, h2, h3, h4, h5, h6, show ¬ i - 6 < 6 by omega, show ¬ i - 12 < 6 by omega, show ¬ i - 18 < 6 by omega,
      show ¬ i - 24 < 6 by omega, show ¬ i - 30 < 6 by omega, show i - 36 < 6 by omega, low l.c7 i (by omega),
      low l.c6 (i - 6) (by omega), low l.c5 (i - 12) (by omega), low l.c4 (i - 18) (by omega),
      low l.c3 (i - 24) (by omega), low l.c2 (i - 30) (by omega), show i - 36 < 48 by omega]
  · simp [h0, h1, h2, h3, h4, h5, h6, show ¬ i - 6 < 6 by omega, show ¬ i - 12 < 6 by omega, show ¬ i - 18 < 6 by omega,
      show ¬ i - 24 < 6 by omega, show ¬ i - 30 < 6 by omega, show ¬ i - 36 < 6 by omega, low l.c7 i (by omega),
      low l.c6 (i - 6) (by omega), low l.c5 (i - 12) (by omega), low l.c4 (i - 18) (by omega),
      low l.c3 (i - 24) (by omega), low l.c2 (i - 30) (by omega), low l.c1 (i - 36) (by omega),
      show i - 42 < 48 by omega]

/-- Every bit of the 88 data bits, by field. -/
theorem getLsbD_frameData (cfg : Config) (df : BitVec 5) (id : Ident) (i : Nat) :
    (frameData cfg df id).getLsbD i =
      if i < 48 then (idPack cfg.alphabet id).getLsbD i
      else if i < 56 then cfg.tcb.getLsbD (i - 48)
      else if i < 80 then cfg.aa.getLsbD (i - 56)
      else (headerByte df cfg.ca).getLsbD (i - 80) := by
  have h : (frameData cfg df id).getLsbD i = BitVec.getLsbD (w := 8 + 24 + 8 + 48)
      (headerByte df cfg.ca ++ cfg.aa ++ cfg.tcb ++ idPack cfg.alphabet id) i := rfl
  rw [h]
  repeat rw [BitVec.getLsbD_append]
  simp only [Nat.sub_sub, Nat.reduceAdd, show (i - 48 < 8) = (i < 56) from propext (by omega),
    show (i - 56 < 24) = (i < 80) from propext (by omega)]

/-- Every bit of an encoded frame: the checksum in bits 23:0, the data bits above it. -/
theorem getLsbD_encodeFrame (cfg : Config) (df : BitVec 5) (id : Ident) (i : Nat) :
    (encodeFrame cfg df id).getLsbD i =
      if i < 24 then (crc24 cfg.genOrient (frameData cfg df id)).getLsbD i
      else (frameData cfg df id).getLsbD (i - 24) := by
  have h : (encodeFrame cfg df id).getLsbD i = BitVec.getLsbD (w := 88 + 24)
      (frameData cfg df id ++ crc24 cfg.genOrient (frameData cfg df id)) i := rfl
  rw [h, BitVec.getLsbD_append]

/-- Every bit of the header byte: DF in bits 7:3, CA in bits 2:0 (30_encoding.md R33). -/
theorem getLsbD_headerByte (df : BitVec 5) (ca : BitVec 3) (i : Nat) (hi : i < 8) :
    (headerByte df ca).getLsbD i = if i < 3 then ca.getLsbD i else df.getLsbD (i - 3) := by
  simp only [headerByte, BitVec.getLsbD_or, BitVec.getLsbD_shiftLeft, BitVec.getLsbD_setWidth, hi, decide_true,
    Bool.true_and]
  by_cases h : i < 3
  · simp [h]
  · simp [h, BitVec.getLsbD_of_ge ca i (by omega), show i - 3 < 8 by omega]

end Sys2Proof.Machine
end

