-- ==== Sys2Proof/Laws/Memory.lean ====
section
/-! SUPPORT. The laws of the frame buffer: a read after a write, and that every memory operation keeps the canonical form. -/

namespace Sys2Proof.Machine

@[simp] theorem Memory.read?_nil (a : Nat) : Memory.read? [] a = none := rfl

/-- A byte reads as written. -/
@[simp] theorem Memory.read?_write_same (m : Memory) (a : Nat) (v : Byte) : (m.write a v).read? a = some v := by
  induction m with
  | nil => simp [Memory.write, Memory.read?]
  | cons c m ih =>
    obtain ⟨b, u⟩ := c
    rcases Nat.lt_trichotomy a b with h | rfl | h
    · simp [Memory.write, Memory.read?, h]
    · simp [Memory.write, Memory.read?]
    · have h1 : ¬ a < b := by omega
      have h2 : a ≠ b := by omega
      simp [Memory.write, Memory.read?, h1, h2, ih]

/-- A write leaves every other byte alone. -/
theorem Memory.read?_write_other (m : Memory) {a b : Nat} (v : Byte) (h : b ≠ a) :
    (m.write a v).read? b = m.read? b := by
  induction m with
  | nil => simp [Memory.write, Memory.read?, h]
  | cons c m ih =>
    obtain ⟨k, u⟩ := c
    rcases Nat.lt_trichotomy a k with h1 | rfl | h1
    · simp [Memory.write, Memory.read?, h1, h]
    · simp [Memory.write, Memory.read?, h]
    · have h2 : ¬ a < k := by omega
      have h3 : a ≠ k := by omega
      simp [Memory.write, Memory.read?, h2, h3, ih]

/-- Which addresses a write lists. -/
theorem Memory.mem_write {m : Memory} {a : Nat} {v : Byte} {c : Host.Cell} (h : c ∈ m.write a v) :
    c = (a, v) ∨ c ∈ m := by
  induction m with
  | nil => simpa [Memory.write] using h
  | cons d m ih =>
    obtain ⟨k, u⟩ := d
    simp only [Memory.write] at h
    split at h
    · simpa using h
    · split at h
      · simp only [List.mem_cons] at h ⊢
        tauto
      · simp only [List.mem_cons] at h ⊢
        rcases h with h | h
        · exact .inr (.inl h)
        · rcases ih h with h | h
          · exact .inl h
          · exact .inr (.inr h)

/-- A write of an address that exists keeps the canonical form. -/
theorem Memory.wf_write {m : Memory} {a : Nat} (v : Byte) (hm : m.wf) (ha : a < 14) : (m.write a v).wf := by
  refine ⟨?_, fun c hc => ?_⟩
  · have hs := hm.1
    clear hm
    induction m with
    | nil => simp [Memory.write]
    | cons d m ih =>
      obtain ⟨k, u⟩ := d
      simp only [List.map_cons, List.pairwise_cons, List.mem_map, forall_exists_index, and_imp,
        forall_apply_eq_imp_iff₂] at hs
      simp only [Memory.write]
      split
      · rename_i hlt
        simp only [List.map_cons, List.pairwise_cons, List.mem_cons, List.mem_map]
        refine ⟨?_, ?_, hs.2⟩
        · rintro x (rfl | ⟨c, hc, rfl⟩)
          · exact hlt
          · exact Nat.lt_trans hlt (hs.1 c hc)
        · rintro x ⟨c, hc, rfl⟩
          exact hs.1 c hc
      · split
        · rename_i heq
          subst heq
          simp only [List.map_cons, List.pairwise_cons, List.mem_map]
          refine ⟨?_, hs.2⟩
          rintro x ⟨c, hc, rfl⟩
          exact hs.1 c hc
        · simp only [List.map_cons, List.pairwise_cons, List.mem_map]
          refine ⟨?_, ih hs.2⟩
          rintro x ⟨c, hc, rfl⟩
          rcases Memory.mem_write hc with rfl | hc
          · show k < a
            omega
          · exact hs.1 c hc
  · rcases Memory.mem_write hc with rfl | hc
    · exact ha
    · exact hm.2 c hc

/-- Writing several bytes: what each address reads as after. -/
theorem Memory.read?_writeBytes (vs : List Byte) : ∀ (m : Memory) (a b : Nat),
    (m.writeBytes a vs).read? b = if h : a ≤ b ∧ b < a + vs.length then some (vs[b - a]'(by omega)) else m.read? b := by
  induction vs with
  | nil => intro m a b; rw [dif_neg (by simp only [List.length_nil]; omega)]; rfl
  | cons v vs ih =>
    intro m a b
    rw [Memory.writeBytes, ih]
    rcases Nat.lt_trichotomy b a with h | rfl | h
    · rw [dif_neg (by omega), dif_neg (by omega), Memory.read?_write_other _ _ (by omega)]
    · rw [dif_neg (by omega), dif_pos (by simp)]
      simp
    · by_cases hb : b < a + (vs.length + 1)
      · rw [dif_pos (by omega), dif_pos (by simp only [List.length_cons]; omega)]
        have : b - a = (b - (a + 1)) + 1 := by omega
        simp [this]
      · rw [dif_neg (by omega), dif_neg (by simp only [List.length_cons]; omega),
          Memory.read?_write_other _ _ (by omega)]

/-- Writing several bytes inside FB keeps the canonical form. -/
theorem Memory.wf_writeBytes (vs : List Byte) : ∀ {m : Memory} {a : Nat}, m.wf → a + vs.length ≤ 14 →
    (m.writeBytes a vs).wf := by
  induction vs with
  | nil => intro m a hm _; exact hm
  | cons v vs ih =>
    intro m a hm ha
    simp only [List.length_cons] at ha
    exact ih (Memory.wf_write v hm (by omega)) (by omega)

@[simp] theorem bytesBE_length (n : Nat) (v : BitVec (8 * n)) : (bytesBE n v).length = n := by simp [bytesBE]

@[simp] theorem bytesBE_get (n : Nat) (v : BitVec (8 * n)) (i : Nat) (h : i < (bytesBE n v).length) :
    (bytesBE n v)[i] = v.extractLsb' (8 * (n - 1 - i)) 8 := by simp [bytesBE]

/-- `MemWrite` inside FB answers, and what it answers. -/
theorem Memory.memWrite_ok {m : Memory} {a n : Nat} (v : BitVec (8 * n)) (h : a + n ≤ 14) :
    m.memWrite a n v = .ok (m.writeBytes a (bytesBE n v)) := by simp [Memory.memWrite, h]

/-- `MemWrite` outside FB faults. -/
theorem Memory.memWrite_out {m : Memory} {a n : Nat} (v : BitVec (8 * n)) (h : 14 < a + n) :
    m.memWrite a n v = .error .noSuchAddress := by
  simp [Memory.memWrite, Nat.not_le.mpr h]

/-- Everything `MemWrite` can do where it answers: each byte of FB after it, and the canonical form kept. -/
theorem Memory.memWrite_spec {m m' : Memory} {a n : Nat} {v : BitVec (8 * n)} (h : m.memWrite a n v = .ok m') :
    a + n ≤ 14 ∧ (∀ i, i < n → m'.read? (a + i) = some (v.extractLsb' (8 * (n - 1 - i)) 8)) ∧
      (∀ b, b < a ∨ a + n ≤ b → m'.read? b = m.read? b) ∧ (m.wf → m'.wf) := by
  by_cases hn : a + n ≤ 14
  · rw [Memory.memWrite_ok v hn] at h
    obtain rfl := Except.ok.inj h
    refine ⟨hn, fun i hi => ?_, fun b hb => ?_, fun hm => Memory.wf_writeBytes _ hm (by simpa using hn)⟩
    · rw [Memory.read?_writeBytes, dif_pos (by simp only [bytesBE_length]; omega)]
      simp
    · rw [Memory.read?_writeBytes, dif_neg (by simp only [bytesBE_length]; omega)]
  · rw [Memory.memWrite_out v (by omega)] at h
    exact nomatch h

/-- An address below every listed one reads as `NOVAL`. -/
theorem Memory.read?_below {m : Memory} {a : Nat} (h : ∀ c ∈ m, a < c.1) : m.read? a = none := by
  induction m with
  | nil => rfl
  | cons d m ih =>
    have h1 := h d (by simp)
    have h2 : a ≠ d.1 := by omega
    simp only [Memory.read?, h2, if_false]
    exact ih fun c hc => h c (by simp [hc])

/-- Canonical memories that read alike are the same list. -/
theorem Memory.wf_ext {m m' : Memory} (hm : m.wf) (hm' : m'.wf) (h : ∀ a, m.read? a = m'.read? a) : m = m' := by
  have h1 := hm.1
  have h2 := hm'.1
  clear hm hm'
  induction m generalizing m' with
  | nil =>
    cases m' with
    | nil => rfl
    | cons d m' => simpa [Memory.read?] using h d.1
  | cons d m ih =>
    cases m' with
    | nil => simpa [Memory.read?] using h d.1
    | cons d' m' =>
      simp only [List.map_cons, List.pairwise_cons, List.mem_map, forall_exists_index, and_imp,
        forall_apply_eq_imp_iff₂] at h1 h2
      have hk : d.1 = d'.1 := by
        rcases Nat.lt_trichotomy d.1 d'.1 with hlt | heq | hlt
        · have hn : Memory.read? (d' :: m') d.1 = none := Memory.read?_below (by
            rintro c hc
            rcases List.mem_cons.mp hc with rfl | hc
            · exact hlt
            · exact Nat.lt_trans hlt (h2.1 c hc))
          have := h d.1
          rw [hn] at this
          simp [Memory.read?] at this
        · exact heq
        · have hn : Memory.read? (d :: m) d'.1 = none := Memory.read?_below (by
            rintro c hc
            rcases List.mem_cons.mp hc with rfl | hc
            · exact hlt
            · exact Nat.lt_trans hlt (h1.1 c hc))
          have := h d'.1
          rw [hn] at this
          simp [Memory.read?] at this
      have hv : d.2 = d'.2 := by
        have := h d.1
        simpa [Memory.read?, ← hk] using this
      have hd : d = d' := Prod.ext hk hv
      subst hd
      congr 1
      refine ih (fun a => ?_) h1.2 h2.2
      by_cases ha : a = d.1
      · subst ha
        rw [Memory.read?_below h1.1, Memory.read?_below h2.1]
      · simpa [Memory.read?, ha] using h a

/-- A whole frame in FB is in canonical form. -/
theorem frameCells_wf (f : Frame) : Memory.wf (frameCells f) := by
  constructor
  · have : (frameCells f).map Prod.fst = List.range 14 := by simp [frameCells, Function.comp_def]
    rw [this]
    decide
  · intro c hc
    simp only [frameCells, List.mem_map, List.mem_range] at hc
    obtain ⟨i, hi, rfl⟩ := hc
    exact hi

/-- What each address of a whole frame in FB reads as. -/
theorem read?_frameCells (f : Frame) (a : Nat) :
    Memory.read? (frameCells f) a = if a < 14 then some (frameByte f a) else none := by
  by_cases h : a < 14
  · have : ∀ i : Fin 14, Memory.read? (frameCells f) i = some (frameByte f i) := by
      intro i
      fin_cases i <;> rfl
    simpa [h] using this ⟨a, h⟩
  · have hr : ∀ l : List Nat, (∀ i ∈ l, i < 14) → Memory.read? (l.map fun i => (i, frameByte f i)) a = none := by
      intro l hl
      induction l with
      | nil => rfl
      | cons i l ih =>
        have hi := hl i (by simp)
        have hne : a ≠ i := by omega
        simp only [List.map_cons, Memory.read?, hne, if_false]
        exact ih fun j hj => hl j (by simp [hj])
    rw [if_neg h]
    exact hr (List.range 14) (by simp)

/-- COMPLETE's commit: whatever a canonical FB held, it holds the whole frame after. -/
theorem Memory.commit_eq {m : Memory} (hm : m.wf) (f : Frame) : m.memWrite 0 14 f = .ok (frameCells f) := by
  have ho := Memory.memWrite_ok (m := m) (a := 0) (n := 14) f (by omega)
  have hs := Memory.memWrite_spec ho
  refine ho.trans (congrArg _ (Memory.wf_ext (hs.2.2.2 hm) (frameCells_wf f) fun a => ?_))
  rw [read?_frameCells]
  by_cases h : a < 14
  · rw [if_pos h]
    have := hs.2.1 a h
    rw [Nat.zero_add] at this
    exact this
  · rw [if_neg h, hs.2.2.1 a (by omega)]
    by_contra hc
    have hmem : ∀ l : Memory, l.read? a ≠ none → ∃ c ∈ l, c.1 = a := by
      intro l
      induction l with
      | nil => simp
      | cons d l ih =>
        intro hl
        by_cases hd : a = d.1
        · exact ⟨d, by simp, hd.symm⟩
        · simp only [Memory.read?, hd, if_false] at hl
          obtain ⟨c, hc, hca⟩ := ih hl
          exact ⟨c, by simp [hc], hca⟩
    obtain ⟨c, hc1, hc2⟩ := hmem m hc
    have := hm.2 c hc1
    omega

/-- The value of n bytes is the value whose bytes they are. -/
theorem Memory.value?_of_bytes (m : Memory) (a : Nat) : ∀ (n : Nat) (v : BitVec (8 * n)),
    (∀ i, i < n → m.read? (a + i) = some (v.extractLsb' (8 * (n - 1 - i)) 8)) → m.value? a n = some v := by
  intro n
  induction n with
  | zero => intro v _; simp only [Memory.value?]; congr 1; exact (BitVec.eq_nil v).symm
  | succ n ih =>
    intro v h
    have hhi := ih (v.extractLsb' 8 (8 * n)) fun i hi => by
      rw [h i (by omega)]
      congr 1
      apply BitVec.eq_of_getLsbD_eq
      intro j hj
      have h1 : 8 * (n - 1 - i) + j < 8 * n := by omega
      have h2 : 8 + (8 * (n - 1 - i) + j) = 8 * (n + 1 - 1 - i) + j := by omega
      simp [hj, h1, h2]
    have hlo := h n (by omega)
    simp only [Memory.value?, hhi, hlo]
    congr 1
    apply BitVec.eq_of_getLsbD_eq
    intro j hj
    rw [BitVec.getLsbD_append]
    by_cases h8 : j < 8
    · simp [h8]
    · have h3 : j - 8 < 8 * n := by omega
      have h4 : 8 + (j - 8) = j := by omega
      simp [h8, h3, h4]

/-- Everything `MemRead` can do where it answers: the bytes exist, and the value is theirs. -/
theorem Memory.memRead_spec {m : Memory} {a n : Nat} {v : BitVec (8 * n)} (h : m.memRead a n = .ok v) :
    a + n ≤ 14 ∧ m.value? a n = some v := by
  unfold Memory.memRead at h
  split at h
  · split at h
    · rename_i hn _ w hw
      exact ⟨hn, by rw [hw, Except.ok.inj h]⟩
    · exact nomatch h
  · exact nomatch h

/-- `MemRead` inside FB, where the bytes hold a value. -/
theorem Memory.memRead_ok {m : Memory} {a n : Nat} {v : BitVec (8 * n)} (h : a + n ≤ 14) (hv : m.value? a n = some v) :
    m.memRead a n = .ok v := by
  simp [Memory.memRead, h, hv]

/-- The `frame` output of a whole frame. -/
theorem value?_frameCells (f : Frame) : Memory.value? (frameCells f) 0 14 = some f :=
  Memory.value?_of_bytes _ 0 14 f fun i hi => by
    rw [read?_frameCells, Nat.zero_add, if_pos hi]
    rfl

/-- The `crc` output of a whole frame: its last 24 bits. -/
theorem value?_frameCells_crc (f : Frame) : Memory.value? (frameCells f) 11 3 = some (f.extractLsb' 0 24) :=
  Memory.value?_of_bytes _ 11 3 (f.extractLsb' 0 24) fun i hi => by
    rw [read?_frameCells, if_pos (by omega)]
    congr 1
    apply BitVec.eq_of_getLsbD_eq
    intro j hj
    have h1 : 8 * (3 - 1 - i) + j < 24 := by omega
    have h2 : 13 - (11 + i) = 3 - 1 - i := by omega
    simp [frameByte, hj, h1, h2]

end Sys2Proof.Machine
end

