-- ==== Sys2Proof/Laws/PerInstr.lean ====
section
/-! SUPPORT. Statements made per instruction, as syntax: the family `TableBits` says that an operation's encoding, where it has
one, carries the fixed bits of its row of spec/opcode_table.json. -/

namespace Sys2Proof.Laws.TableBits

/-- The mask and match of a row of spec/opcode_table.json; an internal row has none. -/
def row : Instr → Option (PortWord × PortWord)
  | .reset => some (0x400000000000000000#71, 0x400000000000000000#71)
  | .start _ _ => some (0x600000000000000000#71, 0x200000000000000000#71)
  | .nop => some (0x600000000000000000#71, 0#71)
  | .complete => none
  | .encodeFrame _ _ => none
  | .charEnc _ => none
  | .idPack _ => none
  | .crc24 _ => none

/-- The operation has an encoding exactly where its row has one, and the encoding carries the row's bits (30_encoding.md R38). -/
def Statement (i : Instr) : Prop :=
  (encode i).isSome = (row i).isSome ∧ (encode i).isSome = i.OnPort ∧
    ∀ w k m, encode i = some w → row i = some (k, m) → w &&& k = m

theorem reset : Statement .reset := by
  refine ⟨rfl, rfl, ?_⟩
  rintro w k m ⟨⟩ ⟨⟩
  decide

theorem start (df : BitVec 5) (id : Ident) : Statement (.start df id) := by
  refine ⟨rfl, rfl, ?_⟩
  rintro w k m ⟨⟩ ⟨⟩
  obtain ⟨c0, c1, c2, c3, c4, c5, c6, c7⟩ := id
  apply BitVec.eq_of_getLsbD_eq
  intro i hi
  by_cases h : i = 69 ∨ i = 70
  · rcases h with rfl | rfl <;> rw [BitVec.getLsbD_and, getLsbD_startWord] <;> rfl
  · have hm : (0x600000000000000000#71).getLsbD i = false ∧ (0x200000000000000000#71).getLsbD i = false := by
      have : ∀ j : Fin 71, j.val ≠ 69 → j.val ≠ 70 →
          (0x600000000000000000#71).getLsbD j = false ∧ (0x200000000000000000#71).getLsbD j = false := by decide
      exact this ⟨i, hi⟩ (fun hi => h (.inl hi)) (fun hi => h (.inr hi))
    simp [hm.1, hm.2]

theorem nop : Statement .nop := by
  refine ⟨rfl, rfl, ?_⟩
  rintro w k m ⟨⟩ ⟨⟩
  decide

theorem complete : Statement .complete := ⟨rfl, rfl, fun _ _ _ h => nomatch h⟩

theorem encodeFrame (df : BitVec 5) (id : Ident) : Statement (.encodeFrame df id) := ⟨rfl, rfl, fun _ _ _ h => nomatch h⟩

theorem charEnc (c : Byte) : Statement (.charEnc c) := ⟨rfl, rfl, fun _ _ _ h => nomatch h⟩

theorem idPack (id : Ident) : Statement (.idPack id) := ⟨rfl, rfl, fun _ _ _ h => nomatch h⟩

theorem crc24 (d : BitVec 88) : Statement (.crc24 d) := ⟨rfl, rfl, fun _ _ _ h => nomatch h⟩

end Sys2Proof.Laws.TableBits
end

