-- ==== Sys2Proof/Laws/State.lean ====
section
/-! SUPPORT. One lemma per field of State per update, so that no proof unfolds a record update. -/

namespace Sys2Proof.Machine

variable (s : State)

@[simp] theorem State.withDatapath_cfg (d : Datapath) : (s.withDatapath d).cfg = s.cfg := rfl
@[simp] theorem State.withDatapath_fb (d : Datapath) : (s.withDatapath d).fb = s.fb := rfl
@[simp] theorem State.withDatapath_valid (d : Datapath) : (s.withDatapath d).valid = s.valid := rfl
@[simp] theorem State.withDatapath_phase (d : Datapath) : (s.withDatapath d).phase = s.phase := rfl
@[simp] theorem State.withDatapath_dfC (d : Datapath) : (s.withDatapath d).dfC = s.dfC := rfl
@[simp] theorem State.withDatapath_idC (d : Datapath) : (s.withDatapath d).idC = s.idC := rfl
@[simp] theorem State.withDatapath_dp (d : Datapath) : (s.withDatapath d).dp = d := rfl
@[simp] theorem State.withDatapath_wait (d : Datapath) : (s.withDatapath d).wait = s.wait := rfl
@[simp] theorem State.withDatapath_draws (d : Datapath) : (s.withDatapath d).draws = s.draws := rfl
@[simp] theorem State.withDatapath_host (d : Datapath) : (s.withDatapath d).host = s.host := rfl

@[simp] theorem State.capture_cfg (df : BitVec 5) (id : Ident) : (s.capture df id).cfg = s.cfg := rfl
@[simp] theorem State.capture_fb (df : BitVec 5) (id : Ident) : (s.capture df id).fb = s.fb := rfl
@[simp] theorem State.capture_valid (df : BitVec 5) (id : Ident) : (s.capture df id).valid = s.valid := rfl
@[simp] theorem State.capture_phase (df : BitVec 5) (id : Ident) : (s.capture df id).phase = s.phase := rfl
@[simp] theorem State.capture_dfC (df : BitVec 5) (id : Ident) : (s.capture df id).dfC = some df := rfl
@[simp] theorem State.capture_idC (df : BitVec 5) (id : Ident) : (s.capture df id).idC = id.map some := rfl
@[simp] theorem State.capture_dp (df : BitVec 5) (id : Ident) : (s.capture df id).dp = s.dp := rfl
@[simp] theorem State.capture_wait (df : BitVec 5) (id : Ident) : (s.capture df id).wait = s.wait := rfl
@[simp] theorem State.capture_draws (df : BitVec 5) (id : Ident) : (s.capture df id).draws = s.draws := rfl
@[simp] theorem State.capture_host (df : BitVec 5) (id : Ident) : (s.capture df id).host = s.host := rfl

@[simp] theorem State.dropCapture_cfg : s.dropCapture.cfg = s.cfg := rfl
@[simp] theorem State.dropCapture_fb : s.dropCapture.fb = s.fb := rfl
@[simp] theorem State.dropCapture_valid : s.dropCapture.valid = s.valid := rfl
@[simp] theorem State.dropCapture_phase : s.dropCapture.phase = s.phase := rfl
@[simp] theorem State.dropCapture_dfC : s.dropCapture.dfC = none := rfl
@[simp] theorem State.dropCapture_idC : s.dropCapture.idC = Lanes.fill none := rfl
@[simp] theorem State.dropCapture_dp : s.dropCapture.dp = s.dp := rfl
@[simp] theorem State.dropCapture_wait : s.dropCapture.wait = s.wait := rfl
@[simp] theorem State.dropCapture_draws : s.dropCapture.draws = s.draws := rfl
@[simp] theorem State.dropCapture_host : s.dropCapture.host = s.host := rfl

@[simp] theorem State.enterReset_cfg : s.enterReset.cfg = s.cfg := rfl
@[simp] theorem State.enterReset_fb : s.enterReset.fb = s.fb := rfl
@[simp] theorem State.enterReset_valid : s.enterReset.valid = false := rfl
@[simp] theorem State.enterReset_phase : s.enterReset.phase = .idle := rfl
@[simp] theorem State.enterReset_dfC : s.enterReset.dfC = s.dfC := rfl
@[simp] theorem State.enterReset_idC : s.enterReset.idC = s.idC := rfl
@[simp] theorem State.enterReset_dp : s.enterReset.dp = s.dp := rfl
@[simp] theorem State.enterReset_wait : s.enterReset.wait = s.wait := rfl
@[simp] theorem State.enterReset_draws : s.enterReset.draws = s.draws := rfl
@[simp] theorem State.enterReset_host : s.enterReset.host = s.host := rfl

@[simp] theorem State.enterBusy_cfg : s.enterBusy.cfg = s.cfg := rfl
@[simp] theorem State.enterBusy_fb : s.enterBusy.fb = s.fb := rfl
@[simp] theorem State.enterBusy_valid : s.enterBusy.valid = false := rfl
@[simp] theorem State.enterBusy_phase : s.enterBusy.phase = .busy := rfl
@[simp] theorem State.enterBusy_dfC : s.enterBusy.dfC = s.dfC := rfl
@[simp] theorem State.enterBusy_idC : s.enterBusy.idC = s.idC := rfl
@[simp] theorem State.enterBusy_dp : s.enterBusy.dp = s.dp := rfl
@[simp] theorem State.enterBusy_wait : s.enterBusy.wait = s.wait := rfl
@[simp] theorem State.enterBusy_draws : s.enterBusy.draws = s.draws := rfl
@[simp] theorem State.enterBusy_host : s.enterBusy.host = s.host := rfl

@[simp] theorem State.enterReady_cfg : s.enterReady.cfg = s.cfg := rfl
@[simp] theorem State.enterReady_fb : s.enterReady.fb = s.fb := rfl
@[simp] theorem State.enterReady_valid : s.enterReady.valid = true := rfl
@[simp] theorem State.enterReady_phase : s.enterReady.phase = .idle := rfl
@[simp] theorem State.enterReady_dfC : s.enterReady.dfC = s.dfC := rfl
@[simp] theorem State.enterReady_idC : s.enterReady.idC = s.idC := rfl
@[simp] theorem State.enterReady_dp : s.enterReady.dp = s.dp := rfl
@[simp] theorem State.enterReady_wait : s.enterReady.wait = s.wait := rfl
@[simp] theorem State.enterReady_draws : s.enterReady.draws = s.draws := rfl
@[simp] theorem State.enterReady_host : s.enterReady.host = s.host := rfl

@[simp] theorem State.drawLatency_cfg : s.drawLatency.cfg = s.cfg := rfl
@[simp] theorem State.drawLatency_fb : s.drawLatency.fb = s.fb := rfl
@[simp] theorem State.drawLatency_valid : s.drawLatency.valid = s.valid := rfl
@[simp] theorem State.drawLatency_phase : s.drawLatency.phase = s.phase := rfl
@[simp] theorem State.drawLatency_dfC : s.drawLatency.dfC = s.dfC := rfl
@[simp] theorem State.drawLatency_idC : s.drawLatency.idC = s.idC := rfl
@[simp] theorem State.drawLatency_dp : s.drawLatency.dp = s.dp := rfl
@[simp] theorem State.drawLatency_wait : s.drawLatency.wait = Config.latency s.draws := rfl
@[simp] theorem State.drawLatency_draws : s.drawLatency.draws = s.draws + 1 := rfl
@[simp] theorem State.drawLatency_host : s.drawLatency.host = s.host := rfl

@[simp] theorem State.takeTurn_cfg (rest : List HostAct) : (s.takeTurn rest).cfg = s.cfg := rfl
@[simp] theorem State.takeTurn_fb (rest : List HostAct) : (s.takeTurn rest).fb = s.fb := rfl
@[simp] theorem State.takeTurn_valid (rest : List HostAct) : (s.takeTurn rest).valid = s.valid := rfl
@[simp] theorem State.takeTurn_phase (rest : List HostAct) : (s.takeTurn rest).phase = s.phase := rfl
@[simp] theorem State.takeTurn_dfC (rest : List HostAct) : (s.takeTurn rest).dfC = s.dfC := rfl
@[simp] theorem State.takeTurn_idC (rest : List HostAct) : (s.takeTurn rest).idC = s.idC := rfl
@[simp] theorem State.takeTurn_dp (rest : List HostAct) : (s.takeTurn rest).dp = s.dp := rfl
@[simp] theorem State.takeTurn_wait (rest : List HostAct) : (s.takeTurn rest).wait = s.wait - 1 := rfl
@[simp] theorem State.takeTurn_draws (rest : List HostAct) : (s.takeTurn rest).draws = s.draws := rfl
@[simp] theorem State.takeTurn_host (rest : List HostAct) :
    (s.takeTurn rest).host = { s.host with plan := rest, elapsed := s.host.elapsed + 1 } := rfl

@[simp] theorem State.withHost_cfg (h : HostSide) : (s.withHost h).cfg = s.cfg := rfl
@[simp] theorem State.withHost_fb (h : HostSide) : (s.withHost h).fb = s.fb := rfl
@[simp] theorem State.withHost_valid (h : HostSide) : (s.withHost h).valid = s.valid := rfl
@[simp] theorem State.withHost_phase (h : HostSide) : (s.withHost h).phase = s.phase := rfl
@[simp] theorem State.withHost_dfC (h : HostSide) : (s.withHost h).dfC = s.dfC := rfl
@[simp] theorem State.withHost_idC (h : HostSide) : (s.withHost h).idC = s.idC := rfl
@[simp] theorem State.withHost_dp (h : HostSide) : (s.withHost h).dp = s.dp := rfl
@[simp] theorem State.withHost_wait (h : HostSide) : (s.withHost h).wait = s.wait := rfl
@[simp] theorem State.withHost_draws (h : HostSide) : (s.withHost h).draws = s.draws := rfl
@[simp] theorem State.withHost_host (h : HostSide) : (s.withHost h).host = h := rfl

@[simp] theorem State.withFetchWord_cfg (n w : Nat) : (s.withFetchWord n w).cfg = s.cfg := rfl
@[simp] theorem State.withFetchWord_fb (n w : Nat) : (s.withFetchWord n w).fb = s.fb := rfl
@[simp] theorem State.withFetchWord_valid (n w : Nat) : (s.withFetchWord n w).valid = s.valid := rfl
@[simp] theorem State.withFetchWord_phase (n w : Nat) : (s.withFetchWord n w).phase = s.phase := rfl
@[simp] theorem State.withFetchWord_dfC (n w : Nat) : (s.withFetchWord n w).dfC = s.dfC := rfl
@[simp] theorem State.withFetchWord_idC (n w : Nat) : (s.withFetchWord n w).idC = s.idC := rfl
@[simp] theorem State.withFetchWord_dp (n w : Nat) : (s.withFetchWord n w).dp = s.dp := rfl
@[simp] theorem State.withFetchWord_wait (n w : Nat) : (s.withFetchWord n w).wait = s.wait + 1 := rfl
@[simp] theorem State.withFetchWord_draws (n w : Nat) : (s.withFetchWord n w).draws = s.draws := rfl
@[simp] theorem State.withFetchWord_host (n w : Nat) :
    (s.withFetchWord n w).host = { s.host with plan := .drive (BitVec.ofNat 71 w) :: s.host.plan } := rfl

/-- Two updates of the host side: the later one stands. -/
@[simp] theorem State.withHost_withHost (h k : HostSide) : (s.withHost h).withHost k = s.withHost k := rfl

/-- Two contents of the datapath: the later one stands. -/
@[simp] theorem State.withDatapath_withDatapath (d e : Datapath) :
    (s.withDatapath d).withDatapath e = s.withDatapath e := rfl

/-- The datapath and the host side are apart. -/
theorem State.withDatapath_withHost (d : Datapath) (h : HostSide) :
    (s.withDatapath d).withHost h = (s.withHost h).withDatapath d := rfl

end Sys2Proof.Machine
end

