-- ==== Sys2Proof/Laws/Steps.lean ====
section
/-! SUPPORT. What each shared operation can do, said once: the boundary, the reads, the transactions, a host turn and a step. A
proof about runs cites these and unfolds none of them. -/

namespace Sys2Proof.Machine

/-! ### Capture and boundary -/

@[simp] theorem lanes_values_map {α : Type} (l : Lanes α) : (l.map some).values? = some l := rfl

@[simp] theorem captured_capture (s : State) (df : BitVec 5) (id : Ident) :
    (s.capture df id).captured? = some (df, id) := rfl

/-- The captured inputs are a view of DF_C and ID_C. -/
theorem captured_congr {s t : State} (hd : t.dfC = s.dfC) (hi : t.idC = s.idC) : t.captured? = s.captured? := by
  simp only [State.captured?, hd, hi]

/-- What the boundary lets through. -/
theorem portInputs_ok {df : Nat} {codes : List Byte} {d : BitVec 5} {i : Ident} (h : portInputs df codes = .ok (d, i)) :
    df ≤ 31 ∧ d = BitVec.ofNat 5 df ∧ identOfList? codes = some i := by
  unfold portInputs at h
  split at h
  · exact nomatch h
  · split at h
    · exact nomatch h
    · rename_i hdf _ hid
      cases h
      exact ⟨by omega, rfl, hid⟩

/-- Eight codes are an identifier, and only eight are. -/
theorem identOfList_isSome (l : List Byte) : (identOfList? l).isSome ↔ l.length = 8 := by
  constructor
  · intro h
    unfold identOfList? at h
    split at h
    · rfl
    · exact nomatch h
  · intro h
    match l, h with
    | [_, _, _, _, _, _, _, _], _ => rfl

/-- The codes of an identifier, one by one. -/
theorem identOfList_get {l : List Byte} {i : Ident} (h : identOfList? l = some i) (k : Fin 8) :
    l[k.val]? = some (i.get k) := by
  unfold identOfList? at h
  split at h
  · cases h
    fin_cases k <;> rfl
  · exact nomatch h

/-- A text of at most 8 codes, padded, is an identifier: the text and then spaces. -/
theorem padIdent_ident {text : List Byte} (h : text.length ≤ 8) :
    ∃ i, identOfList? (padIdent text) = some i ∧ ∀ k : Fin 8, i.get k = text.getD k.val 0x20#8 := by
  have hl : (padIdent text).length = 8 := by simp only [padIdent, List.length_append, List.length_replicate]; omega
  obtain ⟨i, hi⟩ := Option.isSome_iff_exists.mp ((identOfList_isSome _).mpr hl)
  refine ⟨i, hi, fun k => ?_⟩
  have hk := identOfList_get hi k
  have h8 := k.isLt
  rw [padIdent, List.getElem?_append] at hk
  rw [List.getD_eq_getElem?_getD]
  split at hk
  · rw [hk]
    rfl
  · rename_i hn
    rw [List.getElem?_replicate, if_pos (by omega)] at hk
    rw [List.getElem?_eq_none (by omega)]
    exact (Option.some.inj hk).symm

/-- A `df` and codes that fit pass the boundary. -/
theorem portInputs_fit {df : Nat} {codes : List Byte} {i : Ident} (hd : df ≤ 31) (hi : identOfList? codes = some i) :
    portInputs df codes = .ok (BitVec.ofNat 5 df, i) := by
  rw [portInputs, if_neg (by omega), hi]

/-! ### Reads -/

/-- A host read of the `frame` port where VALID = 1 is a `MemRead` of FB. -/
theorem readPort_valid {s : State} (hv : s.valid = true) (a n : Nat) : s.readPort a n = s.fb.memRead a n := by
  simp [State.readPort, hv]

/-- A host read of FRAME where VALID = 1 and FB holds a whole frame. -/
theorem readFrame_whole {s : State} {f : Frame} (hv : s.valid = true) (hf : s.fb = frameCells f) :
    s.readFrame = .ok f := by
  unfold State.readFrame
  rw [readPort_valid hv]
  exact Memory.memRead_ok (by omega) (by rw [hf]; exact value?_frameCells f)

/-- A host read of CRC_OUT where VALID = 1 and FB holds a whole frame. -/
theorem readCrc_whole {s : State} {f : Frame} (hv : s.valid = true) (hf : s.fb = frameCells f) :
    s.readCrc = .ok (f.extractLsb' 0 24) := by
  unfold State.readCrc
  rw [readPort_valid hv]
  exact Memory.memRead_ok (by omega) (by rw [hf]; exact value?_frameCells_crc f)

/-- A host read of FRAME or CRC_OUT while VALID = 0 faults (60_exceptions.md R71). -/
theorem readPort_not_valid {s : State} (hv : s.valid = false) (a n : Nat) : s.readPort a n = .error .readNotValid := by
  simp [State.readPort, hv]

/-! ### Transactions -/

/-- A port word carries one of the three transactions. -/
theorem decode_cases (w : PortWord) :
    decode w = .reset ∨ decode w = .start (portDf w) (portId w) ∨ decode w = .nop := by
  unfold decode
  split
  · exact .inl rfl
  · split
    · exact .inr (.inl rfl)
    · exact .inr (.inr rfl)

/-- A turn without a request changes nothing. -/
@[simp] theorem actNoRequest_eq (s : State) : actNoRequest s = .next s := rfl

theorem execStart_idle {s : State} (h : s.phase = .idle) (df : BitVec 5) (id : Ident) :
    exec (.start df id) s = .next (s.capture df id).enterBusy.drawLatency := by
  simp only [exec, execStart, h]

theorem execStart_busy {s : State} (h : s.phase = .busy) (df : BitVec 5) (id : Ident) :
    exec (.start df id) s = .next s := by
  simp only [exec, execStart, h]

/-- COMPLETE over any memory: it commits through `MemWrite`, which answers. -/
theorem execComplete_busy {s : State} {df : BitVec 5} {id : Ident} (h : s.phase = .busy)
    (hc : s.captured? = some (df, id)) :
    ∃ m, s.fb.memWrite 0 14 (encodeFrame s.cfg df id) = .ok m ∧
      exec .complete s = .next ({ s with fb := m }.enterReady.withDatapath Datapath.blank) := by
  refine ⟨_, Memory.memWrite_ok _ (by omega), ?_⟩
  simp only [exec, execComplete, h, hc]
  rw [Memory.memWrite_ok _ (by omega)]

/-- Everything COMPLETE can do where it answers. -/
theorem execComplete_next {s t : State} (h : exec .complete s = .next t) :
    s.phase = .busy ∧ ∃ df id m, s.captured? = some (df, id) ∧
      s.fb.memWrite 0 14 (encodeFrame s.cfg df id) = .ok m ∧
      t = { s with fb := m }.enterReady.withDatapath Datapath.blank := by
  cases hp : s.phase with
  | idle => simp only [exec, execComplete, hp] at h; exact nomatch h
  | busy =>
    refine ⟨rfl, ?_⟩
    cases hc : s.captured? with
    | none => simp only [exec, execComplete, hp, hc] at h; exact nomatch h
    | some c =>
      obtain ⟨df, id⟩ := c
      obtain ⟨m, hm, he⟩ := execComplete_busy hp hc
      rw [he] at h
      exact ⟨df, id, m, rfl, hm, (Host.Outcome.next.inj h).symm⟩

/-- Everything a port transaction can do: it always answers, and how. -/
theorem exec_decode_cases (w : PortWord) (s : State) :
    (decode w = .reset ∧
      exec (decode w) s = .next ({ s with fb := [] }.dropCapture.enterReset.withDatapath Datapath.blank)) ∨
    (∃ df id, decode w = .start df id ∧ s.phase = .idle ∧
      exec (decode w) s = .next (s.capture df id).enterBusy.drawLatency) ∨
    (decode w ≠ .reset ∧ (s.phase = .busy ∨ decode w = .nop) ∧ exec (decode w) s = .next s) := by
  rcases decode_cases w with h | h | h
  · exact .inl ⟨h, by rw [h]; rfl⟩
  · cases hp : s.phase with
    | idle => exact .inr (.inl ⟨_, _, h, rfl, by rw [h, execStart_idle hp]⟩)
    | busy => exact .inr (.inr ⟨by rw [h]; exact nofun, .inl rfl, by rw [h, execStart_busy hp]⟩)
  · exact .inr (.inr ⟨by rw [h]; exact nofun, .inr h, by rw [h]; rfl⟩)

/-! ### The hand-over -/

/-- Everything the hand-over can do: nothing, where `valid` reads 0 or FRAME has no value, or one frame read and handed over for each
accepted BEGIN that waits for it. -/
theorem handOver_cases (s : State) :
    (s.handOver = s ∧ (s.valid = true → ∃ e, s.readFrame = .error e)) ∨
    (s.valid = true ∧ ∃ f, s.readFrame = .ok f ∧
      s.handOver = s.withHost { s.host with
        handed := s.host.handed ++ List.replicate s.host.handOversDue f, handOversDue := 0 }) := by
  unfold State.handOver
  split
  · rename_i h
    cases hr : s.readFrame with
    | ok f => exact .inr ⟨h, f, rfl, rfl⟩
    | error e => exact .inl ⟨rfl, fun _ => ⟨e, rfl⟩⟩
  · rename_i h
    exact .inl ⟨rfl, fun hv => absurd hv h⟩

/-- The hand-over changes the host's side only. -/
theorem handOver_eq_withHost (s : State) : s.handOver = s.withHost s.handOver.host := by
  rcases handOver_cases s with ⟨h, _⟩ | ⟨_, f, _, h⟩ <;> rw [h] <;> rfl

@[simp] theorem State.handOver_cfg (s : State) : s.handOver.cfg = s.cfg := by rw [handOver_eq_withHost]; rfl
@[simp] theorem State.handOver_fb (s : State) : s.handOver.fb = s.fb := by rw [handOver_eq_withHost]; rfl
@[simp] theorem State.handOver_valid (s : State) : s.handOver.valid = s.valid := by rw [handOver_eq_withHost]; rfl
@[simp] theorem State.handOver_phase (s : State) : s.handOver.phase = s.phase := by rw [handOver_eq_withHost]; rfl
@[simp] theorem State.handOver_dfC (s : State) : s.handOver.dfC = s.dfC := by rw [handOver_eq_withHost]; rfl
@[simp] theorem State.handOver_idC (s : State) : s.handOver.idC = s.idC := by rw [handOver_eq_withHost]; rfl
@[simp] theorem State.handOver_dp (s : State) : s.handOver.dp = s.dp := by rw [handOver_eq_withHost]; rfl
@[simp] theorem State.handOver_wait (s : State) : s.handOver.wait = s.wait := by rw [handOver_eq_withHost]; rfl
@[simp] theorem State.handOver_draws (s : State) : s.handOver.draws = s.draws := by rw [handOver_eq_withHost]; rfl

/-- Of the host's side, the hand-over leaves all but the frames handed over and the hand-overs due. -/
theorem handOver_host (s : State) : s.handOver.host.plan = s.host.plan ∧ s.handOver.host.tx = s.host.tx ∧
    s.handOver.host.startsDue = s.host.startsDue ∧ s.handOver.host.elapsed = s.host.elapsed ∧
    s.handOver.host.seen = s.host.seen := by
  rcases handOver_cases s with ⟨h, _⟩ | ⟨_, f, _, h⟩ <;> rw [h] <;> exact ⟨rfl, rfl, rfl, rfl, rfl⟩

@[simp] theorem State.handOver_plan (s : State) : s.handOver.host.plan = s.host.plan := (handOver_host s).1
@[simp] theorem State.handOver_tx (s : State) : s.handOver.host.tx = s.host.tx := (handOver_host s).2.1
@[simp] theorem State.handOver_startsDue (s : State) : s.handOver.host.startsDue = s.host.startsDue :=
  (handOver_host s).2.2.1
@[simp] theorem State.handOver_elapsed (s : State) : s.handOver.host.elapsed = s.host.elapsed := (handOver_host s).2.2.2.1
@[simp] theorem State.handOver_seen (s : State) : s.handOver.host.seen = s.host.seen := (handOver_host s).2.2.2.2

/-- While VALID = 0 the host waits. -/
theorem handOver_not_valid {s : State} (h : s.valid = false) : s.handOver = s := by
  simp [State.handOver, State.readValid, h]

/-- Where FRAME reads as f, f is handed over for each hand-over that is due. -/
theorem handOver_valid {s : State} {f : Frame} (hv : s.valid = true) (hf : s.readFrame = .ok f) :
    s.handOver = s.withHost { s.host with
      handed := s.host.handed ++ List.replicate s.host.handOversDue f, handOversDue := 0 } := by
  simp [State.handOver, State.readValid, hv, hf]

/-- Where no hand-over is due, there is none. -/
theorem handOver_not_due {s : State} (h : s.host.handOversDue = 0) : s.handOver = s := by
  rcases handOver_cases s with ⟨he, _⟩ | ⟨_, f, _, he⟩
  · exact he
  · rw [he, h, List.replicate_zero, List.append_nil, ← h]
    rfl

/-- What is handed over and what is due add up the same before and after a hand-over. -/
theorem handOver_account (s : State) :
    s.handOver.host.handed.length + s.handOver.host.handOversDue = s.host.handed.length + s.host.handOversDue := by
  rcases handOver_cases s with ⟨h, _⟩ | ⟨_, f, _, h⟩ <;> rw [h]
  simp

/-! ### A host turn -/

/-- A START is ready in IDLE, where one is due, and only there. -/
theorem startReady_some {s : State} {c : BitVec 5 × Ident} {later : List (BitVec 5 × Ident)} :
    s.startReady? = some (c, later) ↔ s.phase = .idle ∧ s.host.startsDue = c :: later := by
  unfold State.startReady?
  cases s.phase <;> cases s.host.startsDue <;> simp

/-- No START is ready in BUSY, nor where none is due. -/
theorem startReady_none {s : State} : s.startReady? = none ↔ s.phase = .busy ∨ s.host.startsDue = [] := by
  unfold State.startReady?
  cases s.phase <;> cases s.host.startsDue <;> simp

/-- With no START ready, the turn is a NOP. -/
theorem actStartDue_none {s : State} (h : s.startReady? = none) : actStartDue s = .next s := by
  simp only [actStartDue, h, actNoRequest_eq]

/-- With a START ready, the turn drives it, and its hand-over is due. -/
theorem actStartDue_some {s : State} {c : BitVec 5 × Ident} {later : List (BitVec 5 × Ident)}
    (h : s.startReady? = some (c, later)) :
    actStartDue s = exec (decode (startWord c.1 c.2))
      (s.withHost { s.host with startsDue := later, handOversDue := s.host.handOversDue + 1 }) := by
  simp only [actStartDue, h, actDrive]

/-- What the host's side k of an act that drives the word w can do: the plan keeps its rest but for a WAIT that waits; nothing is handed over; a hand-over
becomes due only where a START is issued in IDLE; what the host owes grows by one where TX goes from Idle to Transmitting, which only
a BEGIN does; TX becomes Idle only by a Done or an enabled Timeout. -/
structure HostMove (a : HostAct) (s : State) (w : PortWord) (k : HostSide) : Prop where
  handed : k.handed = s.host.handed
  plan : k.plan = s.host.plan ∨ (k.plan = a :: s.host.plan ∧ k.tx = s.host.tx ∧ a = .wait ∧ s.valid = false)
  due : k.handOversDue = s.host.handOversDue ∨
    (k.handOversDue = s.host.handOversDue + 1 ∧ s.phase = .idle ∧ ∃ d i, w = startWord d i)
  owed : k.startsDue.length + k.handOversDue = s.host.startsDue.length + s.host.handOversDue +
    (if s.host.tx = .idle ∧ k.tx = .transmitting then 1 else 0)
  accepts : s.host.tx = .idle → k.tx = .transmitting → ∃ df text, a = .beginTx df text
  toIdle : k.tx = .idle → s.host.tx = .idle ∨ a = .report .done ∨ a = .reportInt s.cfg.doneSentinel ∨
    (a = .timeout ∧ s.timeoutEnabled = true)

/-- An act that leaves what the host owes and the plan alone, and TX, unless it sets Idle. -/
theorem HostMove.still {a : HostAct} {s : State} {w : PortWord} {k : HostSide} (hh : k.handed = s.host.handed) (hp : k.plan = s.host.plan)
    (hs : k.startsDue = s.host.startsDue) (hd : k.handOversDue = s.host.handOversDue)
    (ht : k.tx = s.host.tx ∨ k.tx = .idle ∧ (a = .report .done ∨ a = .reportInt s.cfg.doneSentinel ∨
      (a = .timeout ∧ s.timeoutEnabled = true))) : HostMove a s w k := by
  have hn : s.host.tx = .idle → k.tx ≠ .transmitting := by
    rcases ht with ht | ⟨ht, _⟩ <;> intro h1 <;> simp [ht, h1]
  refine ⟨hh, .inl hp, .inl hd, ?_, fun h1 h2 => absurd h2 (hn h1), fun h => ?_⟩
  · rw [hs, hd, if_neg (fun h => hn h.1 h.2), Nat.add_zero]
  · rcases ht with ht | ⟨_, ht⟩
    · exact .inl (ht ▸ h)
    · exact .inr ht

/-- The turn of a START that is due, after a host side k: it drives one port word, and the debt of that START becomes a hand-over
that is due. -/
theorem actStartDue_next {u t : State} (h : actStartDue u = .next t) :
    ∃ w k, exec (decode w) (u.withHost k) = .next t ∧ k.handed = u.host.handed ∧ k.plan = u.host.plan ∧ k.tx = u.host.tx ∧
      k.startsDue.length + k.handOversDue = u.host.startsDue.length + u.host.handOversDue ∧
      (k.handOversDue = u.host.handOversDue ∨
        (k.handOversDue = u.host.handOversDue + 1 ∧ u.phase = .idle ∧ ∃ d i, w = startWord d i)) := by
  cases hr : u.startReady? with
  | none =>
    rw [actStartDue_none hr] at h
    exact ⟨nopWord, u.host, h, rfl, rfl, rfl, rfl, .inl rfl⟩
  | some c =>
    obtain ⟨c, later⟩ := c
    rw [actStartDue_some hr] at h
    obtain ⟨hi, hs⟩ := startReady_some.mp hr
    refine ⟨_, _, h, rfl, rfl, rfl, ?_, .inr ⟨rfl, hi, _, _, rfl⟩⟩
    simp only [hs, List.length_cons]
    omega

/-- Everything a host's act can do where it answers: its host side moves first, and then exactly one port word is driven. -/
theorem runAct_next {a : HostAct} {s t : State} (h : runAct a s = .next t) :
    ∃ w k, exec (decode w) (s.withHost k) = .next t ∧ HostMove a s w k := by
  have self : ∀ w, HostMove a s w s.host := fun _ => .still rfl rfl rfl rfl (.inl rfl)
  cases a with
  | drive w => exact ⟨w, s.host, h, self _⟩
  | start df id =>
    simp only [runAct, actStart] at h
    split at h
    · exact nomatch h
    · exact ⟨_, s.host, h, self _⟩
  | wait =>
    simp only [runAct, actWait] at h
    split at h
    · exact ⟨nopWord, s.host, h, self _⟩
    · rename_i hv
      obtain ⟨w, k, he, hh, hp, ht, ho, hd⟩ := actStartDue_next h
      refine ⟨w, k, he, hh, .inr ⟨hp, ht, rfl, by simpa [State.readValid] using hv⟩, hd, ?_, ?_, ?_⟩
      · rw [ho, ht]
        cases s.host.tx <;> simp
      · intro h1 h2
        rw [ht, State.withHost_host, h1] at h2
        exact nomatch h2
      · exact fun h1 => .inl (ht ▸ h1)
  | read sel =>
    simp only [runAct, actRead] at h
    split at h
    · exact nomatch h
    · exact ⟨nopWord, _, h, .still rfl rfl rfl rfl (.inl rfl)⟩
  | readByte b =>
    simp only [runAct, actReadByte] at h
    split at h
    · exact nomatch h
    · exact ⟨nopWord, _, h, .still rfl rfl rfl rfl (.inl rfl)⟩
  | poll =>
    obtain ⟨w, k, he, hh, hp, ht, ho, hd⟩ := actStartDue_next h
    refine ⟨w, k, he, hh, .inl hp, hd, ?_, ?_, fun h1 => .inl (ht ▸ h1)⟩
    · rw [ho, ht]
      cases s.host.tx <;> simp
    · intro h1 h2
      rw [ht, h1] at h2
      exact nomatch h2
  | beginTx df text =>
    simp only [runAct, actBegin] at h
    split at h
    · exact ⟨nopWord, s.host, h, self _⟩
    · rename_i htx
      split at h
      · exact nomatch h
      · obtain ⟨w, k, he, hh, hp, ht, ho, hd⟩ := actStartDue_next h
        refine ⟨w, k, he, hh, .inl hp, hd, ?_, fun _ _ => ⟨df, text, rfl⟩, fun h1 => .inl htx⟩
        rw [ho, ht, if_pos ⟨htx, rfl⟩]
        simp only [State.withHost_host, List.length_append, List.length_cons, List.length_nil]
        omega
  | report r =>
    cases r with
    | progress v => exact ⟨nopWord, _, h, .still rfl rfl rfl rfl (.inl rfl)⟩
    | done => exact ⟨nopWord, _, h, .still rfl rfl rfl rfl (.inr ⟨rfl, .inl rfl⟩)⟩
  | reportInt v =>
    by_cases hv : v = s.cfg.doneSentinel
    · simp only [runAct, actReport, reportOfInt, hv, if_true] at h
      exact ⟨nopWord, _, h, .still rfl rfl rfl rfl (.inr ⟨rfl, .inr (.inl (by rw [hv]))⟩)⟩
    · simp only [runAct, actReport, reportOfInt, hv, if_false] at h
      exact ⟨nopWord, _, h, .still rfl rfl rfl rfl (.inl rfl)⟩
  | timeout =>
    simp only [runAct, actTimeout] at h
    split at h
    · rename_i he
      exact ⟨nopWord, _, h, .still rfl rfl rfl rfl (.inr ⟨rfl, .inr (.inr ⟨rfl, he⟩)⟩)⟩
    · exact ⟨nopWord, s.host, h, self _⟩

/-- The next act of a plan that has one. -/
theorem nextAct_cons {s : State} {a : HostAct} {rest : List HostAct} (h : s.host.plan = a :: rest) :
    s.nextAct = (a, rest) := by simp only [State.nextAct, h]

/-- The next act of an empty plan. -/
theorem nextAct_nil {s : State} (h : s.host.plan = []) : s.nextAct = (.poll, []) := by simp only [State.nextAct, h]

/-- A step in COMPLETE's turn. -/
theorem step_complete {s : State} (hp : s.phase = .busy) (hw : s.wait = 0) : step s = exec .complete s := by
  rw [step, if_pos ⟨hp, hw⟩]

/-- A step in the host's turn. -/
theorem step_host {s : State} (h : ¬ (s.phase = .busy ∧ s.wait = 0)) :
    step s = runAct s.nextAct.1 (s.handOver.takeTurn s.nextAct.2) := by
  rw [step, if_neg h]

/-- A step in the host's turn, with an act planned. -/
theorem step_planned {s : State} {a : HostAct} {rest : List HostAct} (h : ¬ (s.phase = .busy ∧ s.wait = 0))
    (hp : s.host.plan = a :: rest) : step s = runAct a (s.handOver.takeTurn rest) := by
  rw [step_host h, nextAct_cons hp]

/-- A step in the host's turn, with nothing planned. -/
theorem step_unplanned {s : State} (h : ¬ (s.phase = .busy ∧ s.wait = 0)) (hp : s.host.plan = []) :
    step s = actStartDue (s.handOver.takeTurn []) := by
  rw [step_host h, nextAct_nil hp]
  rfl

/-! ### Runs -/

/-- A run of any machine goes on from a step that answers. -/
theorem coreRun_next (M : Host.Core) (k : Nat) {s t : M.State} (h : M.step s = .next t) : M.run (k + 1) s = M.run k t := by
  rw [Host.Core.run, h]

/-- A run of any machine stops at a fault. -/
theorem coreRun_fault (M : Host.Core) (k : Nat) {s : M.State} {f : M.Fault} (h : M.step s = .fault f) :
    M.run (k + 1) s = .fault f := by
  rw [Host.Core.run, h]

/-- A run of any machine stops at a refusal. -/
theorem coreRun_refused (M : Host.Core) (k : Nat) {s : M.State} {r : M.Refusal} (h : M.step s = .refused r) :
    M.run (k + 1) s = .refused r := by
  rw [Host.Core.run, h]

/-- A run of no step. -/
theorem run_zero (s : State) : Host.Core.run Sys2Proof.core 0 s = .next s := rfl

/-- A run goes on from a step that answers. -/
theorem run_succ_next {s t : State} (k : Nat) (h : step s = .next t) :
    Host.Core.run Sys2Proof.core (k + 1) s = Host.Core.run Sys2Proof.core k t := coreRun_next Sys2Proof.core k h

/-- A run stops for good at a fault (60_exceptions.md R71: never cleared). -/
theorem run_succ_fault {s : State} {f : Fault} (k : Nat) (h : step s = .fault f) :
    Host.Core.run Sys2Proof.core (k + 1) s = .fault f := coreRun_fault Sys2Proof.core k h

/-- A run that answers has answered at its first step. -/
theorem run_succ_inv {s t : State} {k : Nat} (h : Host.Core.run Sys2Proof.core (k + 1) s = .next t) :
    ∃ u, step s = .next u ∧ Host.Core.run Sys2Proof.core k u = .next t := by
  cases hs : step s with
  | next u => exact ⟨u, rfl, (run_succ_next k hs).symm.trans h⟩
  | fault f => exact nomatch (run_succ_fault k hs).symm.trans h
  | refused r => exact nomatch (coreRun_refused Sys2Proof.core k hs).symm.trans h

end Sys2Proof.Machine
end

