-- ==== Sys2Proof/Tests/Slice0.lean ====
section
/-! SUPPORT. The model's own tests. Every expected result is a vector or an example of spec/95_test_vectors.md, or a word written
out from the spec's encodings; the `REF` configuration is the one R14 gives for test vectors. -/

namespace Sys2Proof.Machine.Tests

/-- The next state, where there is one. -/
def next? : Host.Outcome State Fault Refusal → Option State
  | .next s => some s
  | .fault _ => none
  | .refused _ => none

/-- The fault, where there is one. -/
def fault? : Host.Outcome State Fault Refusal → Option Fault
  | .next _ => none
  | .fault f => some f
  | .refused _ => none

/-- The refusal, where there is one. -/
def refusal? : Host.Outcome State Fault Refusal → Option Refusal
  | .next _ => none
  | .fault _ => none
  | .refused r => some r

/-- The state after RESET under `REF`, with a plan for the host. -/
def fresh (plan : List HostAct) : State :=
  { cfg := Config.ref, fb := [], valid := false, phase := .idle, dfC := none, idC := Lanes.fill none,
    dp := Datapath.blank, wait := 0, draws := 0, host := { HostSide.initial with plan := plan } }

/-- The identifier `KLM1023 ` (95 V-ID1). -/
def klm : Ident := ⟨0x4B#8, 0x4C#8, 0x4D#8, 0x31#8, 0x30#8, 0x32#8, 0x33#8, 0x20#8⟩

/-- The identifier `ABCDEFGH` (95 V-ID2). -/
def abc : Ident := ⟨0x41#8, 0x42#8, 0x43#8, 0x44#8, 0x45#8, 0x46#8, 0x47#8, 0x48#8⟩

/-- BUSY with 17 / `KLM1023 ` captured (95 V-TX3), `wait` turns before COMPLETE. -/
def busy (wait : Nat) (plan : List HostAct) : State :=
  { fresh plan with phase := .busy, dfC := some 17#5, idC := klm.map some, wait := wait }

/-- The V-EF1 frame. -/
def klmFrame : Frame := 0x8D4840D6202CC371C32CE0576098#112

/-- (IDLE, 1, KLM) of 95 §2.5. -/
def ready (plan : List HostAct) : State :=
  { busy 0 plan with phase := .idle, valid := true, fb := frameCells klmFrame }

/-! ### Decoding: words written out from 30_encoding.md R36, R38 and R41 -/

/-- V-TX2 and R36's example: rst 0, start 1, df 10001, then K L M 1 0 2 3 space. -/
theorem test_decode_start : decode 0x314B4C4D3130323320#71 = .start 17#5 klm := by decide

/-- The same word bit by bit: `0 1 10001` then eight codes. -/
theorem test_decode_start_bits :
    decode 0b01_10001_01001011_01001100_01001101_00110001_00110000_00110010_00110011_00100000#71
      = .start 17#5 klm := by decide

/-- V-TX7: `rst` and `start` both 1 is RESET, whatever the fields hold. -/
theorem test_decode_reset : decode 0x714B4C4D3130323320#71 = .reset := by decide

/-- `rst` = `start` = 0 is NOP, whatever the fields hold. -/
theorem test_decode_nop : decode 0x1F4B4C4D3130323320#71 = .nop := by decide

/-- The encoder writes R36's example word. -/
theorem test_encode_start : encode (.start 17#5 klm) = some 0x314B4C4D3130323320#71 := by decide

/-- A number with bit 71 set is no port word (R36) and is refused by name. -/
theorem test_decode_bit71 : decodeNat (2 ^ 71) matches .error .notAPortWord := by decide

/-! ### WellFormed: an ill-formed term for each check, refused -/

/-- R38: COMPLETE has no port encoding. -/
theorem test_onPort_smoke : Instr.OnPort .complete = false ∧ Instr.OnPort (.charEnc 0x41#8) = false := by decide

/-- R59 (a): a natural `df` above 31. -/
theorem test_wellFormed_df : (HostAct.start 32 (List.replicate 8 0x41#8)).WellFormed = false := by decide

/-- R59 (b): a script identifier of seven codes. -/
theorem test_wellFormed_id : (HostAct.start 17 (List.replicate 7 0x41#8)).WellFormed = false := by decide

/-- R59 (c): a text of nine codes, and a `df` above 31, at a BEGIN. -/
theorem test_wellFormed_begin : (HostAct.beginTx 17 (List.replicate 9 0x41#8)).WellFormed = false ∧
    (HostAct.beginTx 32 []).WellFormed = false := by decide

/-- R24: byte address 14 does not exist. -/
theorem test_wellFormed_byte : (HostAct.readByte 14).WellFormed = false := by decide

/-- R13 (a): a table without space at 32 is not legal. -/
theorem test_legal_space : Alphabet.spaceAt32 (Alphabet.ref.set 32 none) = false := by decide

/-- R13 (b): the filler glyph `#` in two slots (93 I4) is refused. -/
theorem test_legal_distinct :
    Alphabet.distinct ((Alphabet.ref.set 0 (some 0x23#8)).set 27 (some 0x23#8)) = false := by decide

/-- R13 (c): a table without the letter A is not legal. -/
theorem test_legal_letters : Alphabet.lettersAndDigits (Alphabet.ref.set 1 none) = false := by decide

/-- R13 (c): a lowercase letter in the table is not legal. -/
theorem test_legal_classes : Alphabet.classesOnly (Alphabet.ref.set 0 (some 0x61#8)) = false := by decide

/-- A punctuation character is legal: `#` in one slot. -/
theorem test_legal_punctuation : Alphabet.Legal (Alphabet.ref.set 0 (some 0x23#8)) = true := by decide

/-! ### CHAR_ENC and ID_PACK: 95 §2.1, §2.2 -/

/-- V-CE1 to V-CE6. -/
theorem test_charEnc_assigned : [0x41#8, 0x4B#8, 0x5A#8, 0x20#8, 0x30#8, 0x39#8].map (charEnc Alphabet.ref)
    = [1, 11, 26, 32, 48, 57] := by decide

/-- V-CE7 to V-CE12. -/
theorem test_charEnc_unassigned : [0x61#8, 0x00#8, 0xFF#8, 0x23#8, 0x40#8, 0x2F#8].map (charEnc Alphabet.ref)
    = [32, 32, 32, 32, 32, 32] := by decide

/-- V-ID1, V-ID2. -/
theorem test_idPack : idPack Alphabet.ref klm = 0x2CC371C32CE0#48 ∧ idPack Alphabet.ref abc = 0x0420C41461C8#48 := by
  decide

/-- V-ID7: `01234567`. -/
theorem test_idPack_digits :
    idPack Alphabet.ref ⟨0x30#8, 0x31#8, 0x32#8, 0x33#8, 0x34#8, 0x35#8, 0x36#8, 0x37#8⟩ = 0xC31CB3D35DB7#48 := by
  decide

/-! ### CRC24: 95 §2.3, both orientations -/

/-- R62's pattern column. -/
theorem test_divisor : divisor .lsbAtCurrent = 0x1FFF409#25 ∧ divisor .msbAtCurrent = 0x1205FFF#25 := by decide

/-- V-CRC1 to V-CRC9 under `LSB_AT_CURRENT`. -/
theorem test_crc_lsb : [0x0#88, 0x1#88, 0x2#88, 0x80#88, 0x1000000#88, 0x8000000000000000000000#88,
      0xFFFFFFFFFFFFFFFFFFFFFF#88, 0x8D4840D6202CC371C32CE0#88, 0x8D4840D6200420C41461C8#88].map (crc24 .lsbAtCurrent)
    = [0x000000#24, 0xFFF409#24, 0x001C1B#24, 0x0706C0#24, 0x2BFD53#24, 0x3935EA#24, 0xD1D94C#24, 0x576098#24,
      0x644984#24] := by decide +kernel

/-- V-CRC1 to V-CRC9 under `MSB_AT_CURRENT`. -/
theorem test_crc_msb : [0x0#88, 0x1#88, 0x2#88, 0x80#88, 0x1000000#88, 0x8000000000000000000000#88,
      0xFFFFFFFFFFFFFFFFFFFFFF#88, 0x8D4840D6202CC371C32CE0#88, 0x8D4840D6200420C41461C8#88].map (crc24 .msbAtCurrent)
    = [0x000000#24, 0x205FFF#24, 0x40BFFE#24, 0x6ABF8E#24, 0x42DBB5#24, 0x0F27F4#24, 0x15F00D#24, 0x255E60#24,
      0x86F16A#24] := by decide +kernel

/-! ### ENCODE_FRAME: 95 §2.4 -/

/-- V-EF1 and V-EF2. -/
theorem test_encodeFrame : encodeFrame Config.ref 17#5 klm = klmFrame ∧
    encodeFrame Config.ref 17#5 abc = 0x8D4840D6200420C41461C8644984#112 := by decide +kernel

/-- V-EF11 under both orientations: other fixed fields. -/
theorem test_encodeFrame_fields :
    encodeFrame { Config.ref with aa := 0xABCDEF#24, tcb := 0x21#8 } 17#5 klm = 0x8DABCDEF212CC371C32CE09E90AB#112 ∧
    encodeFrame { Config.ref with aa := 0xABCDEF#24, tcb := 0x21#8, genOrient := .msbAtCurrent } 17#5 klm
      = 0x8DABCDEF212CC371C32CE0386235#112 := by decide +kernel

/-! ### Transactions: 95 §2.5 -/

/-- V-TX1: RESET from (IDLE, 1, KLM). -/
theorem test_reset : next? (exec .reset (ready [])) = some (fresh []) := by decide

/-- V-TX2: START from IDLE (the latency drawn is a free value and is not compared). -/
theorem test_start : (next? (exec (.start 17#5 klm) (fresh []))).map (fun s => (s.phase, s.valid, s.fb))
      = some (.busy, false, []) ∧
    (next? (exec (.start 17#5 klm) (fresh []))).map State.captured? = some (some (17#5, klm)) := by decide

/-- V-TX3: COMPLETE. -/
theorem test_complete : next? (exec .complete (busy 0 [])) = some (ready []) := by decide +kernel

/-- V-TX4: START in BUSY is dropped. -/
theorem test_start_busy : next? (exec (.start 17#5 abc) (busy 3 [])) = some (busy 3 []) := by decide

/-- V-TX5: NOP. -/
theorem test_nop : next? (exec .nop (ready [])) = some (ready []) := by decide

/-- R55: COMPLETE is not enabled in IDLE. -/
theorem test_complete_idle : refusal? (exec .complete (ready [])) = some .completeNotEnabled := by decide

/-- The sub-operations leave their results in the datapath (V-CE2, V-ID1, V-CRC8, V-EF1). -/
theorem test_suboperations :
    (next? (exec (.charEnc 0x4B#8) (fresh []))).map (fun s => s.dp.idx) = some (some 11#6) ∧
    (next? (exec (.idPack klm) (fresh []))).map (fun s => s.dp.acc) = some (some 0x2CC371C32CE0#48) ∧
    (next? (exec (.crc24 0x8D4840D6202CC371C32CE0#88) (fresh []))).map (fun s => s.dp.remainder?)
      = some (some 0x576098#24) ∧
    (next? (exec (.encodeFrame 17#5 klm) (fresh []))).map (fun s => s.dp.buf) = some (some klmFrame) := by
  decide +kernel

/-! ### The host's reads: V-TX8 to V-TX10, and OUT (R37) -/

/-- V-TX8. -/
theorem test_read_crc : (next? (step (ready [.read { crc := true }]))).map (fun s => (s.host.seen.crc, s.fb))
    = some (some 0x576098#24, frameCells klmFrame) := by decide

/-- V-TX9. -/
theorem test_read_frame_fault : fault? (step (fresh [.read { frame := true }])) = some .readNotValid := by decide

/-- V-TX10: reading `valid` never faults. -/
theorem test_read_valid : (next? (step { busy 1 [.read { valid := true }] with fb := frameCells klmFrame })).map
    (fun s => s.host.seen.valid) = some (some false) := by decide

/-- R24: byte 4 of the frame port is the Type-Code byte; there is no byte 14. -/
theorem test_read_byte : (next? (step (ready [.readByte 4]))).map (fun s => s.host.seen.byte) = some (some 0x20#8) ∧
    fault? (step (ready [.readByte 14])) = some .noSuchAddress := by decide

/-- R37: the output word of (IDLE, 1, KLM): frame, crc, valid. -/
theorem test_out : (ready []).outWord = some (klmFrame ++ 0x576098#24 ++ 1#1) ∧
    (fresh []).outBit 0 = some false ∧ (fresh []).outBit 25 = none ∧ (ready []).outBit 136 = some true := by
  decide

/-- R86's example. -/
theorem test_display : (ready []).display = some ['5', '7', '6', '0', '9', '8'] := by decide

/-! ### Steps -/

/-- COMPLETE comes as a step of its own when the latency has run out, before the host's next act (R73). -/
theorem test_step_complete : next? (step (busy 0 [.drive nopWord])) = some (ready [.drive nopWord]) := by decide +kernel

/-- P3: a RESET in BUSY cancels the encode. -/
theorem test_step_reset_busy : (next? (step (busy 1 [.drive 0x714B4C4D3130323320#71]))).map
    (fun s => (s.phase, s.valid, s.fb, s.dfC)) = some (.idle, false, [], none) := by decide

/-- R41: WAIT stays while `valid` reads 0. -/
theorem test_step_wait : next? (step (busy 2 [.wait])) =
    some { busy 1 [.wait] with host := { (busy 1 [.wait]).host with elapsed := 1 } } := by decide

/-- The boundary refuses a `df` of 32 and a seven-code identifier (R59). -/
theorem test_boundary : refusal? (step (fresh [.start 32 (List.replicate 8 0x41#8)])) = some .dfOutOfRange ∧
    refusal? (step (fresh [.start 17 (List.replicate 7 0x41#8)])) = some .identifierLength := by decide

/-! ### The lifecycle: 95 §2.6 -/

/-- V-LC1: BEGIN in Idle, its text padded with a space. -/
theorem test_begin_idle : (next? (step (fresh [.beginTx 17 [0x4B, 0x4C, 0x4D, 0x31, 0x30, 0x32, 0x33]]))).map
    (fun s => (s.host.tx, s.host.handOversDue, s.captured?)) = some (.transmitting, 1, some (17#5, klm)) := by decide

/-- The host side of a transmission under way. -/
def sending (due : Nat) (plan : List HostAct) : HostSide :=
  { HostSide.initial with tx := .transmitting, handOversDue := due, plan := plan }

/-- V-LC2: BEGIN in Transmitting. -/
theorem test_begin_transmitting : (next? (step { ready [] with host := sending 0 [.beginTx 17 []] })).map
    (fun s => (s.host.tx, s.phase, s.valid)) = some (.transmitting, .idle, true) := by decide

/-- V-LC3, V-LC4, V-LC5. -/
theorem test_reports :
    (next? (step { ready [] with host := sending 0 [.report (.progress 5)] })).map (fun s => s.host.tx)
      = some .transmitting ∧
    (next? (step { ready [] with host := sending 0 [.report .done] })).map (fun s => s.host.tx) = some .idle ∧
    (next? (step (ready [.report .done]))).map (fun s => s.host.tx) = some .idle := by decide

/-- P4: the hand-over of the frame, once, also in a turn with an act of its own. -/
theorem test_handOver : (next? (step { ready [] with host := sending 1 [.report (.progress 10)] })).map
    (fun s => (s.host.handed, s.host.handOversDue, s.host.tx)) = some ([klmFrame], 0, .transmitting) := by decide

/-- The host side after a Done that came before the hand-over: TX Idle, the hand-over still due. -/
def owing (plan : List HostAct) : HostSide := { sending 1 plan with tx := .idle }

/-- P4's second BEGIN: the frame of the first is handed over before the second START, so there are two hand-overs in all. -/
theorem test_handOver_before_begin : (next? (step { ready [] with host := owing [.beginTx 17 []] })).map
    (fun s => (s.host.handed, s.host.handOversDue, s.host.tx, s.phase)) = some ([klmFrame], 1, .transmitting, .busy) := by
  decide

/-- R80 (1), D28: a BEGIN in Idle sets TX at once, in BUSY too, where its START is due and would be lost (R93). -/
theorem test_begin_busy : (next? (step { busy 2 [] with host := owing [.beginTx 17 []] })).map
    (fun s => (s.host, s.dfC)) = some ({ owing [] with
      tx := .transmitting, startsDue := [(17#5, Lanes.fill 0x20#8)], elapsed := 0 }, some 17#5) := by decide

/-- The host side with a START due, its BEGIN accepted while the block was BUSY. -/
def toStart (plan : List HostAct) : HostSide := { sending 1 plan with startsDue := [(17#5, abc)] }

/-- R80 (2), R85: the START that is due is issued once it is not lost, after the hand-over of the frame before it. -/
theorem test_start_due :
    (next? (step { ready [] with host := toStart [] })).map (fun s => (s.host.handed, s.host.startsDue.length, s.host.handOversDue))
      = some ([klmFrame], 0, 1) ∧
    (next? (step { ready [] with host := toStart [] })).map State.captured? = some (some (17#5, abc)) := by decide

/-- R85: after BEGIN, Done and a RESET in BUSY, a second BEGIN issues its START, and no WAIT holds up one that is due. -/
theorem test_begin_after_reset :
    (next? (step { fresh [] with host := owing [.beginTx 17 []] })).map (fun s => (s.host.tx, s.host.handOversDue, s.phase))
      = some (.transmitting, 2, .busy) ∧
    (next? (step { fresh [] with host := toStart [.wait] })).map (fun s => (s.phase, s.host.plan)) = some (.busy, [.wait]) := by
  decide

/-- R84: by default `Timeout` does nothing; with a duration set and passed it sets Idle. -/
theorem test_timeout :
    (next? (step { ready [] with host := sending 0 [.timeout] })).map (fun s => s.host.tx) = some .transmitting ∧
    (next? (step { ready [] with cfg := { Config.ref with txTimeout := some 1 }, host := sending 0 [.timeout] })).map
      (fun s => s.host.tx) = some .idle := by decide

/-! ### Witnesses: states and operands that meet the hypotheses of the statements, each clause at a boundary of its range -/

/-- The invariant at a fresh state. -/
theorem witness_inv_fresh (plan : List HostAct) : (fresh plan).Inv :=
  ⟨Alphabet.ref_legal, by simp [fresh, Memory.wf], by simp [fresh], by simp [fresh],
    fun _ _ => ⟨rfl, rfl, rfl⟩, .inl rfl, by simp [fresh, HostSide.initial]⟩

/-- The invariant in BUSY. -/
theorem witness_inv_busy (n : Nat) (plan : List HostAct) : (busy n plan).Inv :=
  ⟨Alphabet.ref_legal, by simp [busy, fresh, Memory.wf], fun _ => ⟨rfl, 17#5, klm, rfl⟩, by simp [busy, fresh],
    by simp [busy, fresh], .inl rfl, by simp [busy, fresh, HostSide.initial]⟩

/-- The invariant with VALID = 1, whatever the host's side is but for what it handed over. -/
theorem witness_inv_ready (h : HostSide) (hh : h.handed = []) : { ready [] with host := h }.Inv := by
  have hm : Memory.wf (frameCells klmFrame) := by decide
  have hf : frameCells klmFrame = frameCells (encodeFrame Config.ref 17#5 klm) := by rw [test_encodeFrame.1]
  exact ⟨Alphabet.ref_legal, hm, by simp [ready], fun _ => ⟨17#5, klm, rfl, hf⟩, by simp [ready],
    .inr ⟨17#5, klm, hf⟩, by simp [hh]⟩

/-- DecodeFollowsOpcodeTable, StartReadsPortFields, EncodeDecodeStart: words at the ends of the three ranges. -/
theorem witness_words : decode 0x7FFFFFFFFFFFFFFFFF#71 = .reset ∧
    decode 0x3FFFFFFFFFFFFFFFFF#71 = .start 31#5 (Lanes.fill 0xFF#8) ∧
    decode 0x200000000000000000#71 = .start 0#5 (Lanes.fill 0#8) ∧ decode 0x1FFFFFFFFFFFFFFFFF#71 = .nop := by
  decide

/-- DecodeEncode: the port transactions. -/
theorem witness_onPort : Instr.OnPort .reset ∧ Instr.OnPort (.start 31#5 klm) ∧ Instr.OnPort .nop := by decide

/-- NumbersDecode and FetchWordRuns: the last port word, and the first number that is none. -/
theorem witness_numbers : decodeTableWord 72 (2 ^ 71 - 1) = some .reset ∧ decodeTableWord 72 (2 ^ 71) = none ∧
    decodeTableWord 72 0x314B4C4D3130323320 = some (.start 17#5 klm) := by decide

/-- StepRunsDecodedWord, EachStepIsOneOfTwo: a host turn in IDLE, one in BUSY, and COMPLETE's turn. -/
theorem witness_turns : (fresh [.drive nopWord]).HostsTurn ∧ (busy 1 [.drive nopWord]).HostsTurn ∧
    (busy 0 []).phase = .busy ∧ (busy 0 []).wait = 0 := by
  refine ⟨?_, ?_, rfl, rfl⟩ <;> simp [State.HostsTurn, fresh, busy]

/-- SafeStepAnswers: a safe state that reads, one that starts, one in COMPLETE's turn. -/
theorem witness_safe : (fresh [.start 31 (List.replicate 8 0x41#8)]).Safe ∧ (busy 0 []).Safe ∧
    { ready [] with host := { HostSide.initial with plan := [.read { frame := true }] } }.Safe := by
  refine ⟨⟨witness_inv_fresh _, ?_⟩, ⟨witness_inv_busy _ _, ?_⟩, ⟨witness_inv_ready _ rfl, ?_⟩⟩
  · rintro a rest ⟨⟩
    exact ⟨by decide, trivial⟩
  · rintro a rest ⟨⟩
  · rintro a rest ⟨⟩
    exact ⟨rfl, fun _ => rfl⟩

/-- ResetResult, NopResult: a word with `rst`, and one with neither bit. -/
theorem witness_rst : (0x714B4C4D3130323320#71).getLsbD 70 = true ∧ (0x1F4B4C4D3130323320#71).getLsbD 70 = false ∧
    (0x1F4B4C4D3130323320#71).getLsbD 69 = false := by decide

/-- StartResult: both phases. CompleteResult: BUSY with the inputs captured. -/
theorem witness_phases : (fresh []).phase = .idle ∧ (busy 3 []).phase = .busy ∧
    (busy 0 []).captured? = some (17#5, klm) := ⟨rfl, rfl, rfl⟩

/-- CompleteStops: BUSY with a captured cell that holds no value. -/
theorem witness_noval : fault? (exec .complete { busy 0 [] with dfC := none }) = some .captureNoval := by decide

/-- OperationsNeverFail, ConstantsNeverWritten: an operation that is not COMPLETE, and COMPLETE in BUSY. -/
theorem witness_operations : Instr.crc24 0#88 ≠ .complete ∧ (busy 0 []).Inv ∧ (busy 0 []).phase = .busy ∧
    exec .nop (fresh []) = .next (fresh []) := ⟨by decide, witness_inv_busy 0 [], rfl, rfl⟩

/-- CharEncResult, CharEncLaws: a legal alphabet; an assigned code, a code ruled out at each edge, and an unassigned one. -/
theorem witness_alphabet : Alphabet.ref.Legal = true ∧ Alphabet.ref[1]? = some (some 0x41#8) ∧
    Alphabet.ref[57]? = some (some 0x39#8) ∧ neverAssigned 0x1F#8 = true ∧ neverAssigned 0x7F#8 = true ∧
    neverAssigned 0x20#8 = false ∧ neverAssigned 0x61#8 = true ∧ neverAssigned 0x60#8 = false ∧
    neverAssigned 0xFF#8 = true := by
  refine ⟨Alphabet.ref_legal, ?_⟩
  decide

/-- A code in none of the 64 entries of an alphabet is in no entry. -/
theorem no_entry (a : Alphabet) (c : Byte) (h : ∀ j : Fin 64, a[j.val]? ≠ some (some c)) (i : Nat) :
    a[i]? ≠ some (some c) := by
  by_cases hi : i < 64
  · exact h ⟨i, hi⟩
  · simp [hi]

/-- CharEncLaws (b), IdPackResult: `#` is in no entry of the reference alphabet. -/
theorem witness_unassigned : ∀ i : Nat, Alphabet.ref[i]? ≠ some (some 0x23#8) := no_entry _ _ (by decide)

/-- UnknownCharactersEncodeAsSpace: `#` in the first place, and NUL in the last, as in V-ID9. -/
theorem witness_unknown : ∀ i : Fin 8,
    ({ klm with c0 := 0x20#8 } : Ident).get i = ({ klm with c0 := 0x23#8, c7 := 0#8 } : Ident).get i ∨
    ((∀ k : Nat, Config.ref.alphabet[k]? ≠ some (some (({ klm with c0 := 0x23#8, c7 := 0#8 } : Ident).get i))) ∧
      ({ klm with c0 := 0x20#8 } : Ident).get i = 0x20#8) := by
  intro i
  fin_cases i
  · exact .inr ⟨witness_unassigned, rfl⟩
  all_goals first
    | exact .inl rfl
    | exact .inr ⟨no_entry Alphabet.ref 0#8 (by decide), rfl⟩

/-- StepKeepsInvariant: a state with the invariant whose step answers, in each agent's turn. -/
theorem witness_step : (busy 0 []).Inv ∧ next? (step (busy 0 [])) = some (ready []) ∧ (fresh []).Inv ∧
    step (fresh []) = .next ((fresh []).takeTurn []) :=
  ⟨witness_inv_busy 0 [], by decide +kernel, witness_inv_fresh [], rfl⟩

/-- ValidOutputsAreTheEncoding, HandOverOnce: VALID = 1 under the invariant with a hand-over due and no START due, and a poll planned
or nothing; a hand-over due with VALID = 0; a step that hands over in the turn of a BEGIN it accepts. -/
theorem witness_valid : { ready [] with host := sending 1 [] }.Inv ∧ { ready [] with host := sending 2 [.poll] }.Inv ∧
    (ready []).valid = true ∧ (sending 1 []).startsDue = [] ∧ (busy 1 []).valid = false ∧
    (next? (step { ready [] with host := owing [.beginTx 31 []] })).map (fun t => (t.host.handed, t.host.tx))
      = some ([klmFrame], .transmitting) :=
  ⟨witness_inv_ready _ rfl, witness_inv_ready _ rfl, rfl, rfl, rfl, by decide⟩

/-- BeginHandsOverItsFrame: a BEGIN in a fresh block, and one where the first turn hands over an earlier frame; the plan after it
waits and then reads. -/
theorem witness_beginHandsOver : (fresh [.beginTx 31 (List.replicate 8 0x41#8), .timeout, .wait, .read { frame := true }]).Inv ∧
    { ready [] with host := owing [.beginTx 0 [], .wait, .drive resetWord] }.Inv ∧ (owing []).tx = .idle ∧
    (owing []).startsDue = [] ∧ PlanWaits [.timeout, .wait, .read { frame := true }] ∧ PlanWaits [.wait, .drive resetWord] :=
  ⟨witness_inv_fresh _, witness_inv_ready _ rfl, rfl, rfl,
    ⟨[.timeout], _, rfl, by simp [HostAct.KeepsWaiting, HostAct.WellFormed], .inr ⟨_, rfl⟩⟩, [], _, rfl, by simp, .inr ⟨_, rfl⟩⟩

/-- The invariant at a fresh state, whatever the host's side is but for what it handed over. -/
theorem witness_inv_freshHost (h : HostSide) (hh : h.handed = []) : { fresh [] with host := h }.Inv :=
  ⟨Alphabet.ref_legal, by simp [fresh, Memory.wf], by simp [fresh], by simp [fresh],
    fun _ _ => ⟨rfl, rfl, rfl⟩, .inl rfl, by simp [hh]⟩

/-- DueStartIsIssued, AcceptedBeginsAreServed: a START due, in IDLE with VALID 1, after a RESET and in BUSY, with nothing planned, a
poll and a WAIT; and a hand-over due after a RESET with no START due, which waits for ever. -/
theorem witness_startDue : { ready [] with host := toStart [] }.Inv ∧ { fresh [] with host := toStart [] }.Inv ∧
    (toStart []).plan = [] ∧ (toStart []).startsDue ≠ [] ∧
    { ready [] with host := toStart [.poll] }.HostsTurn ∧ { busy 1 [] with host := toStart [.wait] }.HostsTurn ∧
    (busy 1 []).phase = .busy ∧ (fresh []).phase = .idle ∧ (fresh []).valid = false ∧ (owing []).startsDue = [] ∧
    Host.Core.run Sys2Proof.core 1 { fresh [] with host := owing [] } =
      .next ({ fresh [] with host := owing [] }.takeTurn []) := by
  refine ⟨witness_inv_ready _ rfl, witness_inv_freshHost _ rfl, rfl, nofun, ?_, ?_, rfl, rfl, rfl, rfl, rfl⟩ <;>
    simp [State.HostsTurn, ready, busy]

/-- ReadsHaveNoSideEffect, HostByteReads: FRAME holds a frame and the read is planned, of all outputs, of none, of the last byte and
of the first there is not; a START, which takes VALID away, and a poll, which does not. -/
theorem witness_reads (a : HostAct) : { ready [] with host := { HostSide.initial with plan := [a] } }.Inv ∧
    (ready []).frameOut = some klmFrame ∧ (next? (step (ready [.read {}]))).isSome ∧
    (next? (step (busy 1 [.read { valid := true }]))).isSome ∧ (next? (step (ready [.readByte 13]))).isSome ∧
    (fault? (step (ready [.readByte 14]))).isSome ∧
    (next? (step (ready [.start 0 (List.replicate 8 0x20#8)]))).map (fun t => t.valid) = some false ∧
    (next? (step (ready [.poll]))).map (fun t => t.valid) = some true :=
  ⟨witness_inv_ready _ rfl, by decide, by decide, by decide, by decide, by decide, by decide, by decide⟩

/-- FrameChangesOnlyAtCompleteOrReset: a COMPLETE and a RESET that change FRAME. -/
theorem witness_changes : (next? (step (busy 0 []))).map (fun t => t.fb) ≠ some (busy 0 []).fb ∧
    (next? (step (ready [.drive resetWord]))).map (fun t => t.fb) = some [] ∧ (ready []).fb ≠ [] := by decide

/-- CapturedInputsDecideTheFrame: two states apart in FRAME and the host's inputs, alike in what was captured. -/
theorem witness_captured : (busy 0 []).cfg = { busy 0 [.drive nopWord] with fb := frameCells 0#112 }.cfg ∧
    (busy 0 []).captured? = { busy 0 [.drive nopWord] with fb := frameCells 0#112 }.captured? ∧
    (next? (exec .complete { busy 0 [.drive nopWord] with fb := frameCells 0#112 })).isSome ∧
    (next? (exec .complete (busy 0 []))).isSome := ⟨rfl, rfl, by decide, by decide⟩

/-- DatapathNotObserved: a step that answers, one that faults, one that is refused. -/
theorem witness_datapath : (next? (step (busy 0 []))).isSome ∧ (fault? (step (fresh [.readByte 0]))).isSome ∧
    (refusal? (step (fresh [.beginTx 32 []]))).isSome := by decide

/-- Every act of a host that waits, each once. -/
def waitingActs : List HostAct :=
  [.drive 0x314B4C4D3130323320#71, .start 31 (List.replicate 8 0x41#8), .read { valid := true }, .poll, .beginTx 31 [],
    .report .done, .report (.progress 1), .reportInt 0, .timeout]

/-- EncodeCompletes: latency 0 with nothing planned, and latency 2 with every act of a host that waits, then a WAIT, a read and a
RESET. -/
theorem witness_completes : (busy 0 []).Inv ∧ PlanWaits [] ∧
    (busy 2 (waitingActs ++ [.wait, .read { frame := true }, .drive resetWord])).Inv ∧
    PlanWaits (waitingActs ++ [.wait, .read { frame := true }, .drive resetWord]) := by
  refine ⟨witness_inv_busy _ _, ⟨[], [], rfl, by simp, .inl rfl⟩, witness_inv_busy _ _, waitingActs, _, rfl, ?_, .inr ⟨_, rfl⟩⟩
  intro a ha
  simp only [waitingActs, List.mem_cons, List.not_mem_nil, or_false] at ha
  rcases ha with rfl | rfl | rfl | rfl | rfl | rfl | rfl | rfl | rfl <;> simp [HostAct.KeepsWaiting, HostAct.WellFormed]

/-- MemWriteThenRead: the ends of both ranges. -/
theorem witness_memory : 0 + 14 ≤ 14 ∧ 13 + 1 ≤ 14 ∧ 14 < 14 + 1 ∧ (frameCells klmFrame).wf := by
  refine ⟨by omega, by omega, by omega, ?_⟩
  decide

/-- CrcOutIsAView, DisplayDigits, OutputWordLayout: the three checksum bytes of V-TX8, and a state where they hold none. -/
theorem witness_crcBytes : (ready []).fb.read? 11 = some 0x57#8 ∧ (ready []).fb.read? 12 = some 0x60#8 ∧
    (ready []).fb.read? 13 = some 0x98#8 ∧ (fresh []).fb.read? 11 = none ∧ (ready []).fb = frameCells klmFrame := by
  decide

/-- ReadNotValidFaults: the reads while VALID = 0, in IDLE and in BUSY, in the host's turn. -/
theorem witness_notValid : (fresh [.read { crc := true }]).HostsTurn ∧ (fresh []).valid = false ∧
    (busy 1 [.readByte 13]).HostsTurn ∧ (busy 1 []).valid = false ∧ (fresh [.read { valid := true }]).HostsTurn ∧
    (fresh []).Inv ∧ (fresh []).fb.read? 13 = none := by
  refine ⟨?_, rfl, ?_, rfl, ?_, witness_inv_fresh [], rfl⟩ <;> simp [State.HostsTurn, fresh, busy]

/-- BoundaryRefusesOrStarts: `df` 31 and 32, identifiers of 7, 8 and 9 codes, planned in the host's turn. -/
theorem witness_boundary : (fresh [.start 31 (List.replicate 8 0x41#8)]).HostsTurn ∧
    refusal? (step (fresh [.start 31 (List.replicate 9 0x41#8)])) = some .identifierLength ∧
    (next? (step (fresh [.start 31 (List.replicate 8 0x41#8)]))).isSome := by
  refine ⟨?_, ?_, ?_⟩
  · simp [State.HostsTurn, fresh]
  · decide
  · decide

/-- WaitRepeatsNop: a WAIT with VALID 1 and one with VALID 0. BeginInIdle: a BEGIN with the longest text in IDLE with no START due,
one in IDLE after another's, and one in BUSY. -/
theorem witness_hostTurns : (ready [.wait]).HostsTurn ∧ (busy 1 [.wait]).HostsTurn ∧ (fresh []).host.tx = .idle ∧
    (fresh [.beginTx 31 (List.replicate 8 0x41#8)]).HostsTurn ∧
    { fresh [] with host := { toStart [.beginTx 0 []] with tx := .idle } }.HostsTurn ∧
    (busy 1 [.beginTx 31 []]).HostsTurn := by
  refine ⟨?_, ?_, rfl, ?_, ?_, ?_⟩ <;> simp [State.HostsTurn, fresh, busy, ready]

/-- BeginBoundary: `df` 32, and a text of 9 codes with `df` 31, at a BEGIN in Idle. -/
theorem witness_beginBoundary : (fresh [.beginTx 32 []]).HostsTurn ∧ (fresh []).host.tx = .idle ∧
    refusal? (step (fresh [.beginTx 32 []])) = some .dfOutOfRange ∧
    refusal? (step (fresh [.beginTx 31 (List.replicate 9 0x41#8)])) = some .identifierLength := by
  refine ⟨?_, rfl, by decide, by decide⟩
  simp [State.HostsTurn, fresh]

/-- BeginInTransmitting, ReportsMoveTx, TransmissionHangs, TimeoutOnlyWhereSet: a transmission under way, without and with a
duration set. -/
theorem witness_transmitting : { ready [] with host := sending 0 [.beginTx 40 []] }.HostsTurn ∧
    (sending 0 []).tx = .transmitting ∧ (ready []).cfg.txTimeout = none ∧
    (∀ a ∈ [HostAct.report (.progress 5), .reportInt 7, .timeout],
      a ≠ .report .done ∧ a ≠ .reportInt (ready []).cfg.doneSentinel) := by
  refine ⟨?_, rfl, rfl, ?_⟩
  · simp [State.HostsTurn, ready]
  · decide

/-- BlocksShareNothing: the second of two blocks steps. -/
theorem witness_several : ∃ l, stepOfSeveral 1 [ready [], fresh []] = some (.next l) := ⟨_, rfl⟩

end Sys2Proof.Machine.Tests
end

section
/-! The frame's two ways of addressing a bit agree (00_scope.md R6), and `MemWrite` followed by `MemRead` (R9, R24). -/

namespace Sys2Proof.Machine

/-- Bit `j` of byte `i` of a frame, counted from the frame's least significant end (R8). -/
theorem frameByte_getLsbD (f : Frame) (i : Nat) {j : Nat} (hj : j < 8) :
    (frameByte f i).getLsbD j = f.getLsbD (8 * (13 - i) + j) := by
  simp [frameByte, hj]

/-- Settles O23: both sides read the frame at 111 - k. -/
theorem frameBitOrder : Obligations.FrameBitOrder := by
  unfold Obligations.FrameBitOrder
  intro f k hk
  have hbit : 8 * (13 - k / 8) + (7 - k % 8) = 111 - k := by omega
  rw [frameByte_getLsbD f (k / 8) (by omega), hbit, frameBit]

/-- `MemRead` outside FB faults. -/
theorem Memory.memRead_out {m : Memory} {a n : Nat} (h : 14 < a + n) :
    m.memRead a n = .error .noSuchAddress := by
  simp [Memory.memRead, Nat.not_le.mpr h]

/-- A `MemWrite` that answers is read back by `MemRead` of the same bytes. -/
theorem Memory.memRead_of_memWrite {m m' : Memory} {a n : Nat} {v : BitVec (8 * n)}
    (h : m.memWrite a n v = .ok m') : m'.memRead a n = .ok v := by
  obtain ⟨hin, hbytes, -, -⟩ := Memory.memWrite_spec h
  exact Memory.memRead_ok hin (Memory.value?_of_bytes m' a n v hbytes)

/-- Settles O40: what `MemWrite` leaves is `Memory.memWrite_spec`, and its bytes determine the value read back. -/
theorem memWriteThenRead : Obligations.MemWriteThenRead := by
  unfold Obligations.MemWriteThenRead
  intro m a n v
  constructor
  · intro hin
    have hw := Memory.memWrite_ok (m := m) v hin
    obtain ⟨-, -, hframe, hwf⟩ := Memory.memWrite_spec hw
    exact ⟨_, hw, Memory.memRead_of_memWrite hw, hframe, hwf⟩
  · intro hout
    exact ⟨Memory.memWrite_out v hout, Memory.memRead_out hout⟩

end Sys2Proof.Machine
end

section
/-! What one operation and one step can do, said once, and what follows for the constants (10_state.md R15), for the invariant
(R16 to R19, R23, 20_memory.md R27, R29) and for the datapath, which nothing observes (10_state.md R21). -/

namespace Sys2Proof.Machine

/-! ### What an operation and a step can do where they answer -/

/-- Everything an operation can do where it answers. -/
theorem exec_next {i : Instr} {s t : State} (h : exec i s = .next t) :
    (i = .reset ∧ t = { s with fb := [] }.dropCapture.enterReset.withDatapath Datapath.blank) ∨
    (∃ df id, i = .start df id ∧ s.phase = .idle ∧ t = (s.capture df id).enterBusy.drawLatency) ∨
    (i = .complete ∧ s.phase = .busy ∧ ∃ df id m, s.captured? = some (df, id) ∧
      s.fb.memWrite 0 14 (encodeFrame s.cfg df id) = .ok m ∧
      t = { s with fb := m }.enterReady.withDatapath Datapath.blank) ∨
    ((i = .nop ∨ s.phase = .busy ∧ ∃ df id, i = .start df id) ∧ t = s) ∨
    (i.OnPort = false ∧ i ≠ .complete ∧ ∃ d, t = s.withDatapath d) := by
  cases i with
  | reset => cases h; exact .inl ⟨rfl, rfl⟩
  | start df id =>
    cases hp : s.phase with
    | idle =>
      rw [execStart_idle hp] at h
      cases h
      exact .inr (.inl ⟨df, id, rfl, rfl, rfl⟩)
    | busy =>
      rw [execStart_busy hp] at h
      cases h
      exact .inr (.inr (.inr (.inl ⟨.inr ⟨rfl, df, id, rfl⟩, rfl⟩)))
  | nop => cases h; exact .inr (.inr (.inr (.inl ⟨.inl rfl, rfl⟩)))
  | complete => exact .inr (.inr (.inl ⟨rfl, execComplete_next h⟩))
  | encodeFrame df id => cases h; exact .inr (.inr (.inr (.inr ⟨rfl, nofun, _, rfl⟩)))
  | charEnc c => cases h; exact .inr (.inr (.inr (.inr ⟨rfl, nofun, _, rfl⟩)))
  | idPack id => cases h; exact .inr (.inr (.inr (.inr ⟨rfl, nofun, _, rfl⟩)))
  | crc24 d => cases h; exact .inr (.inr (.inr (.inr ⟨rfl, nofun, _, rfl⟩)))

/-- Everything a step can do where it answers: COMPLETE in its turn, or, in the host's turn, the hand-over, a move of the host's
side and one port word driven (60_exceptions.md R73). -/
theorem step_next {s t : State} (h : step s = .next t) :
    (¬ s.HostsTurn ∧ exec .complete s = .next t) ∨
    (s.HostsTurn ∧ ∃ w k, exec (decode w) ((s.handOver.takeTurn s.nextAct.2).withHost k) = .next t ∧
      HostMove s.nextAct.1 (s.handOver.takeTurn s.nextAct.2) w k) := by
  by_cases hc : s.phase = .busy ∧ s.wait = 0
  · rw [step_complete hc.1 hc.2] at h
    exact .inl ⟨not_not_intro hc, h⟩
  · rw [step_host hc] at h
    exact .inr ⟨hc, runAct_next h⟩

/-! ### The constants -/

/-- No operation writes a constant. -/
theorem exec_cfg {i : Instr} {s t : State} (h : exec i s = .next t) : t.cfg = s.cfg := by
  obtain ⟨-, rfl⟩ | ⟨_, _, -, -, rfl⟩ | ⟨-, -, _, _, _, -, -, rfl⟩ | ⟨-, rfl⟩ | ⟨-, -, _, rfl⟩ := exec_next h <;> rfl

/-- Settles O36: each kind of step ends in one operation, which writes no constant. -/
theorem constantsNeverWritten : Obligations.ConstantsNeverWritten := by
  unfold Obligations.ConstantsNeverWritten
  refine ⟨fun _ _ _ => exec_cfg, fun s t h => ?_⟩
  obtain ⟨-, hc⟩ | ⟨-, w, k, he, -⟩ := step_next h
  · exact exec_cfg hc
  · simpa using exec_cfg he

/-! ### The invariant -/

/-- The invariant speaks of the block and of the frames handed over, and of nothing else. -/
theorem State.Inv.of_sameBlock {s t : State} (hi : s.Inv) (hb : SameBlock s t)
    (hh : ∀ f ∈ t.host.handed, ∃ df id, f = encodeFrame s.cfg df id) : t.Inv := by
  obtain ⟨hcfg, hfb, hvalid, hphase, hdf, hid⟩ := hb
  obtain ⟨legal, memory, busy, valid, fresh, whole, -⟩ := hi
  constructor <;> simp only [State.HoldsEncoding, captured_congr hdf hid, hcfg, hfb, hvalid, hphase, hdf, hid] <;>
    assumption

/-- A block that holds no value meets the invariant (10_state.md R23). -/
theorem State.Inv.of_empty {s : State} (legal : s.cfg.Legal = true) (hfb : s.fb = []) (hv : s.valid = false)
    (hp : s.phase = .idle) (hd : s.dfC = none) (hid : s.idC = Lanes.fill none)
    (handed : ∀ f ∈ s.host.handed, ∃ df id, f = encodeFrame s.cfg df id) : s.Inv where
  legal := legal
  memory := by rw [hfb]; exact ⟨.nil, nofun⟩
  busy := by simp [hp]
  valid := by simp [hv]
  fresh := fun _ _ => ⟨hfb, hd, hid⟩
  whole := .inl hfb
  handed := handed

/-- Settles O32: the launch state holds no value, and every build is legal. -/
theorem resetInvariant : Obligations.ResetInvariant :=
  .of_empty Config.build_legal rfl rfl rfl rfl rfl nofun

/-- An accepted START keeps the invariant: the inputs are captured and FRAME stays. -/
theorem State.Inv.capture {s : State} (hi : s.Inv) (df : BitVec 5) (id : Ident) :
    (s.capture df id).enterBusy.drawLatency.Inv where
  legal := hi.legal
  memory := hi.memory
  busy := fun _ => ⟨rfl, df, id, rfl⟩
  valid := nofun
  fresh := nofun
  whole := hi.whole
  handed := hi.handed

/-- COMPLETE's commit keeps the invariant: FRAME is the encoding of the captured inputs. -/
theorem State.Inv.commit {s : State} (hi : s.Inv) {df : BitVec 5} {id : Ident} (hc : s.captured? = some (df, id)) :
    ({ s with fb := frameCells (encodeFrame s.cfg df id) }.enterReady.withDatapath Datapath.blank).Inv where
  legal := hi.legal
  memory := frameCells_wf _
  busy := nofun
  valid := fun _ => ⟨df, id, hc, rfl⟩
  fresh := nofun
  whole := .inr ⟨df, id, rfl⟩
  handed := hi.handed

/-- Every operation keeps the invariant. -/
theorem exec_keeps_inv {i : Instr} {s t : State} (hi : s.Inv) (h : exec i s = .next t) : t.Inv := by
  obtain ⟨-, rfl⟩ | ⟨df, id, -, -, rfl⟩ | ⟨-, -, df, id, m, hc, hm, rfl⟩ | ⟨-, rfl⟩ | ⟨-, -, d, rfl⟩ := exec_next h
  · exact .of_empty hi.legal rfl rfl rfl rfl rfl hi.handed
  · exact hi.capture df id
  · rw [Memory.commit_eq hi.memory] at hm
    cases hm
    exact hi.commit hc
  · exact hi
  · exact hi.of_sameBlock ⟨rfl, rfl, rfl, rfl, rfl, rfl⟩ hi.handed

/-- The hand-over hands over encodings only: where VALID = 1, what it reads is one. -/
theorem handOver_handed {s : State} (hi : s.Inv) :
    ∀ f ∈ s.handOver.host.handed, ∃ df id, f = encodeFrame s.cfg df id := by
  obtain ⟨he, -⟩ | ⟨hv, f, hf, he⟩ := handOver_cases s
  · rw [he]
    exact hi.handed
  · obtain ⟨df, id, -, hfb⟩ := hi.valid hv
    obtain rfl : encodeFrame s.cfg df id = f := Except.ok.inj ((readFrame_whole hv hfb).symm.trans hf)
    intro g hg
    rw [he] at hg
    obtain hg | hg := List.mem_append.mp hg
    · exact hi.handed g hg
    · exact ⟨df, id, List.eq_of_mem_replicate hg⟩

/-- Settles O33: the hand-over and the host's move keep the invariant, and then one operation does. -/
theorem stepKeepsInvariant : Obligations.StepKeepsInvariant := by
  unfold Obligations.StepKeepsInvariant
  intro s t hi h
  obtain ⟨-, hc⟩ | ⟨-, w, k, he, hk⟩ := step_next h
  · exact exec_keeps_inv hi hc
  · have hb : SameBlock s ((s.handOver.takeTurn s.nextAct.2).withHost k) := by simp [SameBlock]
    have hh : ∀ f ∈ k.handed, ∃ df id, f = encodeFrame s.cfg df id := by
      rw [hk.handed]
      exact handOver_handed hi
    exact exec_keeps_inv (hi.of_sameBlock hb hh) he

/-! ### The datapath is not observed -/

/-- The second outcome is the first but for what the datapath holds (10_state.md R21). -/
def SameButDatapath : Host.Outcome State Fault Refusal → Host.Outcome State Fault Refusal → Prop
  | .next t, o => ∃ e, o = .next (t.withDatapath e)
  | .fault f, o => o = .fault f
  | .refused r, o => o = .refused r

section
variable (s : State) (d : Datapath)

@[simp] theorem State.withDatapath_captured : (s.withDatapath d).captured? = s.captured? := rfl
@[simp] theorem State.withDatapath_readValid : (s.withDatapath d).readValid = s.readValid := rfl
@[simp] theorem State.withDatapath_readPort (a n : Nat) : (s.withDatapath d).readPort a n = s.readPort a n := rfl
@[simp] theorem State.withDatapath_readFrame : (s.withDatapath d).readFrame = s.readFrame := rfl
@[simp] theorem State.withDatapath_sample (sel : ReadSel) : (s.withDatapath d).sample sel = s.sample sel := rfl
@[simp] theorem State.withDatapath_startReady : (s.withDatapath d).startReady? = s.startReady? := rfl
@[simp] theorem State.withDatapath_timeoutEnabled : (s.withDatapath d).timeoutEnabled = s.timeoutEnabled := rfl
@[simp] theorem State.withDatapath_nextAct : (s.withDatapath d).nextAct = s.nextAct := rfl
@[simp] theorem State.withDatapath_outBit (k : Nat) : (s.withDatapath d).outBit k = s.outBit k := rfl

/-- The hand-over reads and writes no part of the datapath. -/
theorem State.withDatapath_handOver : (s.withDatapath d).handOver = s.handOver.withDatapath d := by
  show (if s.readValid then _ else _) = State.withDatapath (if s.readValid then _ else _) d
  cases s.readValid
  · rfl
  · simp only [if_true, State.withDatapath_readFrame]
    cases s.readFrame <;> rfl

/-- Each operation ends alike whatever the datapath holds. -/
theorem exec_withDatapath (i : Instr) : SameButDatapath (exec i s) (exec i (s.withDatapath d)) := by
  cases i with
  | reset => exact ⟨_, rfl⟩
  | start df id =>
    simp only [exec, execStart, State.withDatapath_phase]
    split <;> exact ⟨d, rfl⟩
  | nop => exact ⟨d, rfl⟩
  | complete =>
    simp only [exec, execComplete, State.withDatapath_phase, State.withDatapath_captured, State.withDatapath_fb,
      State.withDatapath_cfg]
    split
    · rfl
    · split
      · rfl
      · split
        · rfl
        · exact ⟨_, rfl⟩
  | encodeFrame df id => exact ⟨_, rfl⟩
  | charEnc c => exact ⟨_, rfl⟩
  | idPack id => exact ⟨_, rfl⟩
  | crc24 x => exact ⟨_, rfl⟩

/-- The turn of a START that is due ends alike whatever the datapath holds. -/
theorem actStartDue_withDatapath : SameButDatapath (actStartDue s) (actStartDue (s.withDatapath d)) := by
  simp only [actStartDue, State.withDatapath_startReady]
  split
  · exact ⟨d, rfl⟩
  · exact exec_withDatapath _ d _

/-- Each act of the host ends alike whatever the datapath holds. -/
theorem runAct_withDatapath (a : HostAct) : SameButDatapath (runAct a s) (runAct a (s.withDatapath d)) := by
  cases a with
  | drive w => exact exec_withDatapath s d _
  | start df id =>
    simp only [runAct, actStart]
    split
    · rfl
    · exact exec_withDatapath s d _
  | wait =>
    show SameButDatapath (if s.readValid then _ else _) (if s.readValid then _ else _)
    cases s.readValid
    · exact actStartDue_withDatapath _ d
    · exact ⟨d, rfl⟩
  | read sel =>
    simp only [runAct, actRead, State.withDatapath_sample]
    split
    · rfl
    · exact ⟨d, rfl⟩
  | readByte b =>
    simp only [runAct, actReadByte, State.withDatapath_readPort]
    split
    · rfl
    · exact ⟨d, rfl⟩
  | poll => exact actStartDue_withDatapath s d
  | beginTx df text =>
    simp only [runAct, actBegin, State.withDatapath_host]
    split
    · exact ⟨d, rfl⟩
    · split
      · rfl
      · exact actStartDue_withDatapath _ d
  | report r => exact ⟨d, rfl⟩
  | reportInt v => exact ⟨d, rfl⟩
  | timeout =>
    show SameButDatapath (if s.timeoutEnabled then _ else _) (if s.timeoutEnabled then _ else _)
    cases s.timeoutEnabled <;> exact ⟨d, rfl⟩

/-- A step ends alike whatever the datapath holds. -/
theorem step_withDatapath : SameButDatapath (step s) (step (s.withDatapath d)) := by
  simp only [step, State.withDatapath_phase, State.withDatapath_wait, State.withDatapath_nextAct,
    State.withDatapath_handOver]
  split
  · exact exec_withDatapath s d _
  · exact runAct_withDatapath _ d _

end

/-- Settles O38: a step ends alike whatever the datapath holds, and no output bit reads it. -/
theorem datapathNotObserved : Obligations.DatapathNotObserved := by
  unfold Obligations.DatapathNotObserved
  intro s d
  have h := step_withDatapath s d
  refine ⟨fun t ht => ?_, fun f hf => ?_, fun r hr => ?_, State.withDatapath_outBit s d⟩
  · rwa [ht] at h
  · rwa [hf] at h
  · rwa [hr] at h

end Sys2Proof.Machine
end

section
/-! CRC_OUT as a view of FRAME (10_state.md R20), and what reset leaves, element by element (R23). -/

namespace Sys2Proof.Machine

/-- A value of several bytes holds none where one of its bytes holds none. -/
theorem Memory.value?_eq_none {m : Memory} {a n i : Nat} (hi : i < n) (h : m.read? (a + i) = none) :
    m.value? a n = none := by
  induction n with
  | zero => omega
  | succ n ih =>
    rcases Nat.lt_succ_iff_lt_or_eq.mp hi with hi | rfl
    · simp only [Memory.value?, ih hi]
    · simp only [Memory.value?, h]
      cases m.value? a i <;> rfl

/-- Settles O41: the three bytes of the value are the bytes at 11, 12 and 13, and where one holds none the value holds none. -/
theorem crcOutIsAView : Obligations.CrcOutIsAView := by
  unfold Obligations.CrcOutIsAView
  intro s
  constructor
  · intro b11 b12 b13 h11 h12 h13
    simp only [State.crcOut, Memory.value?, Nat.reduceAdd, h11, h12, h13]
    exact congrArg (fun b : Byte => some (b ++ b12 ++ b13)) (BitVec.zero_width_append 0#0 b11)
  · rintro (h | h | h)
    · exact Memory.value?_eq_none (i := 0) (by omega) h
    · exact Memory.value?_eq_none (i := 1) (by omega) h
    · exact Memory.value?_eq_none (i := 2) (by omega) h

@[simp] theorem lanes_get_fill {α : Type} (a : α) (i : Fin 8) : (Lanes.fill a).get i = a := by
  fin_cases i <;> rfl

/-- Settles O31: the fields of `State.reset`, and the frame of RESET. -/
theorem resetStateValues : Obligations.ResetStateValues := by
  unfold Obligations.ResetStateValues
  refine ⟨rfl, rfl, Memory.read?_nil, rfl, rfl, lanes_get_fill none, rfl, rfl, ?_⟩
  rintro s t ⟨⟩
  exact ⟨rfl, rfl⟩

end Sys2Proof.Machine
end

section
/-! The outputs and the host's reads of them while VALID = 1 (10_state.md R17, 20_memory.md R24, R27 to R29), and what a turn can
do to FRAME (R29 (3)). -/

namespace Sys2Proof.Machine

/-! ### What FRAME and its views hold while VALID = 1 -/

/-- The last 24 bits of an encoded frame are the checksum of its data bits (41_field_packer.md R52). -/
theorem encodeFrame_crc (cfg : Config) (df : BitVec 5) (id : Ident) :
    (encodeFrame cfg df id).extractLsb' 0 24 = crc24 cfg.genOrient (frameData cfg df id) := by
  apply BitVec.eq_of_getLsbD_eq
  intro i hi
  rw [BitVec.getLsbD_extractLsb', Nat.zero_add, getLsbD_encodeFrame]
  simp [hi]

/-- Settles O34: where VALID = 1 the invariant says which frame FB holds, and both reads are views of it. -/
theorem validOutputsAreTheEncoding : Obligations.ValidOutputsAreTheEncoding := by
  unfold Obligations.ValidOutputsAreTheEncoding
  intro s hi hv
  obtain ⟨df, id, hc, hfb⟩ := hi.valid hv
  exact ⟨df, id, hc, readFrame_whole hv hfb, (readCrc_whole hv hfb).trans (congrArg _ (encodeFrame_crc _ _ _))⟩

/-- While VALID = 1, COMPLETE does not move: the next turn is the host's. -/
theorem State.Inv.hostsTurn {s : State} (hi : s.Inv) (hv : s.valid = true) : s.HostsTurn := by
  rintro ⟨hb, -⟩
  obtain ⟨hn, -⟩ := hi.busy hb
  exact nomatch hv.symm.trans hn

/-- While VALID = 1, FB holds a whole frame. -/
theorem State.Inv.whole_of_valid {s : State} (hi : s.Inv) (hv : s.valid = true) : ∃ f, s.fb = frameCells f := by
  obtain ⟨df, id, -, hfb⟩ := hi.valid hv
  exact ⟨_, hfb⟩

/-- The `frame` output of an FB that holds a whole frame. -/
theorem frameOut_whole {s : State} {f : Frame} (hf : s.fb = frameCells f) : s.frameOut = some f := by
  rw [State.frameOut, hf, value?_frameCells]

/-! ### FRAME over a host turn -/

/-- What a port word does to FB: RESET empties it, and every other word leaves it (30_encoding.md R38). -/
theorem exec_decode_fb {w : PortWord} {s t : State} (h : exec (decode w) s = .next t) :
    t.fb = if portRst w then [] else s.fb := by
  cases hr : portRst w with
  | true =>
    simp only [decode, hr, if_true] at h
    cases h
    rfl
  | false =>
    have hw : decode w ≠ .reset := by
      simp only [decode, hr]
      cases portStart w <;> nofun
    obtain ⟨hn, -⟩ | ⟨_, _, -, -, he⟩ | ⟨-, -, he⟩ := exec_decode_cases w s
    · exact absurd hn hw
    · cases h.symm.trans he; rfl
    · cases h.symm.trans he; rfl

/-- A START's word leaves FB: its `rst` is 0. -/
theorem exec_startWord_fb {df : BitVec 5} {id : Ident} {s t : State}
    (h : exec (decode (startWord df id)) s = .next t) : t.fb = s.fb := by
  have hr : portRst (startWord df id) = false := by rw [portRst, getLsbD_startWord]; simp
  simpa [hr] using exec_decode_fb h

/-- The turn of a START that is due drives no RESET. -/
theorem actStartDue_fb {s t : State} (h : actStartDue s = .next t) : t.fb = s.fb := by
  cases hr : s.startReady? with
  | none =>
    rw [actStartDue_none hr] at h
    cases h
    rfl
  | some c =>
    rw [actStartDue_some (c := c.1) (later := c.2) hr] at h
    exact (exec_startWord_fb h :)

/-- A read that answers changes the host's sample only. -/
theorem runAct_read_next {a : HostAct} {s t : State} (ha : (∃ sel, a = .read sel) ∨ ∃ n, a = .readByte n)
    (h : runAct a s = .next t) : ∃ x, t = s.withHost { s.host with seen := x } := by
  obtain ⟨sel, rfl⟩ | ⟨n, rfl⟩ := ha
  · simp only [runAct, actRead] at h
    split at h <;> cases h
    exact ⟨_, rfl⟩
  · simp only [runAct, actReadByte] at h
    split at h <;> cases h
    exact ⟨_, rfl⟩

/-- Everything a host's act can do to FB: only a driven word with `rst` = 1 changes it. -/
theorem runAct_fb {a : HostAct} {s t : State} (h : runAct a s = .next t) :
    t.fb = s.fb ∨ (t.fb = [] ∧ ∃ w, a = .drive w ∧ w.getLsbD 70 = true) := by
  cases a with
  | drive w =>
    have hfb := exec_decode_fb h
    split at hfb
    · exact .inr ⟨hfb, w, rfl, ‹_›⟩
    · exact .inl hfb
  | start df id =>
    simp only [runAct, actStart] at h
    split at h
    · exact nomatch h
    · exact .inl (exec_startWord_fb h)
  | wait =>
    simp only [runAct, actWait] at h
    split at h
    · cases h
      exact .inl rfl
    · exact .inl (actStartDue_fb h :)
  | read sel =>
    obtain ⟨x, rfl⟩ := runAct_read_next (.inl ⟨sel, rfl⟩) h
    exact .inl rfl
  | readByte b =>
    obtain ⟨x, rfl⟩ := runAct_read_next (.inr ⟨b, rfl⟩) h
    exact .inl rfl
  | poll => exact .inl (actStartDue_fb h)
  | beginTx df text =>
    simp only [runAct, actBegin] at h
    split at h
    · cases h
      exact .inl rfl
    · split at h
      · exact nomatch h
      · exact .inl (actStartDue_fb h :)
  | report r => cases h; exact .inl rfl
  | reportInt v => cases h; exact .inl rfl
  | timeout =>
    simp only [runAct, actTimeout] at h
    split at h <;> cases h <;> exact .inl rfl

/-- A next act that drives a word is the head of the plan. -/
theorem plan_of_nextAct_drive {s : State} {w : PortWord} (h : s.nextAct.1 = .drive w) :
    s.host.plan = .drive w :: s.nextAct.2 := by
  cases hp : s.host.plan with
  | nil => simp [nextAct_nil hp] at h
  | cons a rest =>
    rw [nextAct_cons hp] at h ⊢
    exact congrArg (· :: rest) h

/-- Everything a host turn can do to FB: only a planned word with `rst` = 1 changes it. -/
theorem hostTurn_fb {s t : State} (ht : s.HostsTurn) (h : step s = .next t) :
    t.fb = s.fb ∨ (t.fb = [] ∧ ∃ w rest, s.host.plan = .drive w :: rest ∧ w.getLsbD 70 = true) := by
  rw [step_host ht] at h
  obtain hfb | ⟨hfb, w, ha, hw⟩ := runAct_fb h
  · exact .inl (by simpa using hfb)
  · exact .inr ⟨hfb, w, _, plan_of_nextAct_drive ha, hw⟩

/-- Settles O35: a host turn changes FB only by a RESET word, and the other turn is COMPLETE's. -/
theorem frameChangesOnlyAtCompleteOrReset : Obligations.FrameChangesOnlyAtCompleteOrReset := by
  unfold Obligations.FrameChangesOnlyAtCompleteOrReset
  intro s t h hne
  obtain hc | ⟨ht, -⟩ := step_next h
  · exact .inl hc
  · exact .inr ((hostTurn_fb ht h).resolve_left hne)

/-! ### Reads -/

/-- A host turn whose act changes only the host's side leaves the block as it was. -/
theorem sameBlock_hostTurn (s : State) (rest : List HostAct) (k : HostSide) :
    SameBlock s ((s.handOver.takeTurn rest).withHost k) := by
  simp [SameBlock]

/-- While VALID = 1, the reads of the `frame` port depend on FB alone. -/
theorem readPort_congr {s t : State} (hs : s.valid = true) (ht : t.valid = true) (hfb : t.fb = s.fb) (a n : Nat) :
    t.readPort a n = s.readPort a n := by
  rw [readPort_valid hs, readPort_valid ht, hfb]

/-- A read of any subset of the outputs where VALID = 1 and FB holds a whole frame. -/
theorem sample_whole {s : State} {f : Frame} (sel : ReadSel) (hv : s.valid = true) (hf : s.fb = frameCells f) :
    s.sample sel = .ok { s.host.seen with
      frame := if sel.frame then some f else s.host.seen.frame
      crc := if sel.crc then some (f.extractLsb' 0 24) else s.host.seen.crc
      valid := if sel.valid then some true else s.host.seen.valid } := by
  simp only [State.sample, readFrame_whole hv hf, readCrc_whole hv hf, State.readValid, hv]
  cases sel.frame <;> cases sel.crc <;> rfl

/-- A read whose sample is x records x. -/
theorem runAct_read_of_sample {s : State} {sel : ReadSel} {x : Sample} (h : s.sample sel = .ok x) :
    runAct (.read sel) s = .next (s.withHost { s.host with seen := x }) := by
  simp only [runAct, actRead, h, actNoRequest_eq]

/-- Settles O44: a read changes the host's sample only, and FB is the same over every host turn that drives no RESET. -/
theorem readsHaveNoSideEffect : Obligations.ReadsHaveNoSideEffect := by
  unfold Obligations.ReadsHaveNoSideEffect
  refine ⟨fun s sel rest f hi hv hf hp => ?_, fun s t a rest hp ht ha h => ?_, fun s t ht hw h => ?_⟩
  · obtain ⟨g, hg⟩ := hi.whole_of_valid hv
    obtain rfl : g = f := Option.some.inj ((frameOut_whole hg).symm.trans hf)
    have hx := sample_whole (s := s.handOver.takeTurn rest) sel (by simpa using hv) (by simpa using hg)
    exact ⟨_, (step_planned (hi.hostsTurn hv) hp).trans (runAct_read_of_sample hx), sameBlock_hostTurn s rest _,
      by simp⟩
  · rw [step_planned ht hp] at h
    obtain ⟨x, rfl⟩ := runAct_read_next ha h
    exact ⟨sameBlock_hostTurn s rest _, by simp, by simp⟩
  · have hfb : t.fb = s.fb := by
      obtain hfb | ⟨-, w, rest, hp, h70⟩ := hostTurn_fb ht h
      · exact hfb
      · exact absurd ((hw w rest hp).symm.trans h70) nofun
    refine ⟨by rw [State.frameOut, State.frameOut, hfb], by rw [State.crcOut, State.crcOut, hfb], fun hs hv => ?_⟩
    exact ⟨readPort_congr hs hv hfb 0 14, readPort_congr hs hv hfb 11 3, fun a => readPort_congr hs hv hfb a 1⟩

/-- `MemRead` of one byte of FB that holds a value. -/
theorem Memory.memRead_byte {m : Memory} {a : Nat} {b : Byte} (ha : a < 14) (hb : m.read? a = some b) :
    m.memRead a 1 = .ok b := by
  refine Memory.memRead_ok (by omega) ?_
  simp only [Memory.value?, Nat.add_zero, hb]
  exact congrArg some (BitVec.zero_width_append 0#0 b)

/-- Settles O45: where VALID = 1 every byte of FB holds a value, and the read of one is a `MemRead` of it. -/
theorem hostByteReads : Obligations.HostByteReads := by
  unfold Obligations.HostByteReads
  intro s a rest hi hv hp
  have hport : (s.handOver.takeTurn rest).readPort a 1 = s.fb.memRead a 1 := by
    rw [readPort_valid (by simpa using hv)]
    simp
  rw [step_planned (hi.hostsTurn hv) hp, runAct, actReadByte, hport]
  constructor
  · intro ha
    obtain ⟨f, hf⟩ := hi.whole_of_valid hv
    have hb : s.fb.read? a = some (frameByte f a) := by rw [hf, read?_frameCells, if_pos ha]
    rw [Memory.memRead_byte ha hb]
    exact ⟨_, _, hb, rfl, rfl, sameBlock_hostTurn s rest _, rfl⟩
  · intro ha
    rw [Memory.memRead_out (by omega)]

end Sys2Proof.Machine
end

section
/-! Several blocks side by side (20_memory.md R31, 60_exceptions.md R78). -/

namespace Sys2Proof.Machine

/-- Everything a step of one of several blocks can do where it answers: the state of that block is replaced by its own step's. -/
theorem stepOfSeveral_next {k : Nat} {l l' : List State} (h : stepOfSeveral k l = some (.next l')) :
    ∃ s t, l[k]? = some s ∧ step s = .next t ∧ l' = l.set k t := by
  induction l generalizing k l' with
  | nil => cases k <;> exact nomatch h
  | cons s rest ih =>
    cases k with
    | zero =>
      simp only [stepOfSeveral] at h
      split at h <;> cases h
      exact ⟨s, _, rfl, ‹_›, rfl⟩
    | succ k =>
      simp only [stepOfSeveral] at h
      split at h <;> cases h
      obtain ⟨u, t, hu, ht, rfl⟩ := ih ‹_›
      exact ⟨u, t, hu, ht, rfl⟩

/-- Settles O59: the joint step replaces one entry of the list. -/
theorem blocksShareNothing : Obligations.BlocksShareNothing := by
  unfold Obligations.BlocksShareNothing
  intro k l l' h
  obtain ⟨s, t, hs, ht, rfl⟩ := stepOfSeveral_next h
  have hk : k < l.length := (List.getElem?_eq_some_iff.mp hs).1
  exact ⟨fun j hj => List.getElem?_set_ne hj.symm, s, t, hs, ht, List.getElem?_set_self hk⟩

end Sys2Proof.Machine
end

section
/-! The port word (30_encoding.md R36, R38 to R41): what its fields read, what it decodes to, and that decode and encode
agree. -/

namespace Sys2Proof

/-! ### The fields of a port word -/

/-- Lanes are alike where they hold alike. -/
theorem Lanes.ext_get {α : Type} {l m : Lanes α} (h : ∀ i, l.get i = m.get i) : l = m := by
  obtain ⟨a0, a1, a2, a3, a4, a5, a6, a7⟩ := l
  obtain ⟨b0, b1, b2, b3, b4, b5, b6, b7⟩ := m
  obtain rfl : a0 = b0 := h 0
  obtain rfl : a1 = b1 := h 1
  obtain rfl : a2 = b2 := h 2
  obtain rfl : a3 = b3 := h 3
  obtain rfl : a4 = b4 := h 4
  obtain rfl : a5 = b5 := h 5
  obtain rfl : a6 = b6 := h 6
  obtain rfl : a7 = b7 := h 7
  rfl

/-- Bit `j` of `df` is bit `64 + j` of the port word (R40 (a)). -/
theorem getLsbD_portDf (w : PortWord) {j : Nat} (hj : j < 5) : (portDf w).getLsbD j = w.getLsbD (64 + j) := by
  simp [portDf, hj]

/-- Lane `i` of `id` is the byte of the port word at bit `56 - 8i` (R36). -/
theorem portId_get (w : PortWord) (i : Fin 8) : (portId w).get i = w.extractLsb' (56 - 8 * i.val) 8 := by
  fin_cases i <;> rfl

/-- Bit `j` of `id[i]` is bit `56 - 8i + j` of the port word (R40 (b)). -/
theorem getLsbD_portId (w : PortWord) (i : Fin 8) {j : Nat} (hj : j < 8) :
    ((portId w).get i).getLsbD j = w.getLsbD (56 - 8 * i.val + j) := by
  simp [portId_get, hj]

/-- The four fields of a port word are all of its bits (R36). -/
theorem portWord_ext {w v : PortWord} (hr : portRst w = portRst v) (hs : portStart w = portStart v)
    (hd : portDf w = portDf v) (hi : portId w = portId v) : w = v := by
  apply BitVec.eq_of_getLsbD_eq
  intro b hb
  by_cases hid : b < 64
  · have hbit : 56 - 8 * (7 - b / 8) + b % 8 = b := by omega
    have h := getLsbD_portId w ⟨7 - b / 8, by omega⟩ (j := b % 8) (by omega)
    rwa [hi, getLsbD_portId v _ (by omega), hbit, eq_comm] at h
  by_cases hdf : b < 69
  · have hbit : 64 + (b - 64) = b := by omega
    have h := getLsbD_portDf w (j := b - 64) (by omega)
    rwa [hd, getLsbD_portDf v (by omega), hbit, eq_comm] at h
  obtain rfl | rfl : b = 69 ∨ b = 70 := by omega
  · exact hs
  · exact hr

/-! ### The fields of a START word -/

@[simp] theorem portRst_startWord (df : BitVec 5) (id : Ident) : portRst (startWord df id) = false := by
  rw [portRst, getLsbD_startWord]
  rfl

@[simp] theorem portStart_startWord (df : BitVec 5) (id : Ident) : portStart (startWord df id) = true := by
  rw [portStart, getLsbD_startWord]
  rfl

@[simp] theorem portDf_startWord (df : BitVec 5) (id : Ident) : portDf (startWord df id) = df := by
  apply BitVec.eq_of_getLsbD_eq
  intro j hj
  rw [getLsbD_portDf _ hj, getLsbD_startWord]
  simp (disch := omega) only [if_neg, if_pos, Nat.add_sub_cancel_left]

/-- Bits `56 - 8i` to `63 - 8i` of a START word are `id[i]` (R36). -/
theorem getLsbD_startWord_id (df : BitVec 5) (id : Ident) (i : Fin 8) {j : Nat} (hj : j < 8) :
    (startWord df id).getLsbD (56 - 8 * i.val + j) = (id.get i).getLsbD j := by
  rw [getLsbD_startWord]
  fin_cases i <;>
    simp (disch := omega) only [Lanes.get, Nat.reduceMul, Nat.reduceSub, Nat.zero_add, if_neg, if_pos,
      Nat.add_sub_cancel_left]

@[simp] theorem portId_startWord (df : BitVec 5) (id : Ident) : portId (startWord df id) = id := by
  apply Lanes.ext_get
  intro i
  apply BitVec.eq_of_getLsbD_eq
  intro j hj
  rw [getLsbD_portId _ _ hj, getLsbD_startWord_id _ _ _ hj]

/-- A word with `rst` 0 and `start` 1 is the START word of its own fields. -/
theorem startWord_of_fields {w : PortWord} (hr : portRst w = false) (hs : portStart w = true) :
    startWord (portDf w) (portId w) = w := by
  apply portWord_ext <;> simp [hr, hs]

/-! ### What a port word decodes to -/

theorem decode_eq_reset_iff (w : PortWord) : decode w = .reset ↔ portRst w = true := by
  unfold decode
  cases portRst w <;> cases portStart w <;> simp

theorem decode_eq_start_iff (w : PortWord) (df : BitVec 5) (id : Ident) :
    decode w = .start df id ↔ portRst w = false ∧ portStart w = true ∧ portDf w = df ∧ portId w = id := by
  unfold decode
  cases portRst w <;> cases portStart w <;> simp

theorem decode_eq_nop_iff (w : PortWord) : decode w = .nop ↔ portRst w = false ∧ portStart w = false := by
  unfold decode
  cases portRst w <;> cases portStart w <;> simp

/-- Settles O3: a START word has the fields of its START, and the words of RESET and NOP are two single words. -/
theorem decodeEncode : Obligations.DecodeEncode := by
  unfold Obligations.DecodeEncode
  intro i hi
  cases i with
  | reset => exact ⟨resetWord, rfl, by decide⟩
  | start df id => exact ⟨startWord df id, rfl, by simp [decode_eq_start_iff]⟩
  | nop => exact ⟨nopWord, rfl, by decide⟩
  | complete => exact nomatch hi
  | encodeFrame df id => exact nomatch hi
  | charEnc c => exact nomatch hi
  | idPack id => exact nomatch hi
  | crc24 d => exact nomatch hi

/-- Settles O4: a word that decodes to a START is the START word of its own fields. -/
theorem encodeDecodeStart : Obligations.EncodeDecodeStart := by
  unfold Obligations.EncodeDecodeStart
  intro w df id h
  obtain ⟨hr, hs, rfl, rfl⟩ := (decode_eq_start_iff w df id).mp h
  exact congrArg some (startWord_of_fields hr hs)

/-- Settles O2: the fields of a START are those of its word. -/
theorem startReadsPortFields : Obligations.StartReadsPortFields := by
  unfold Obligations.StartReadsPortFields
  refine ⟨fun w df id h => ?_, by decide⟩
  obtain ⟨hr, hs, rfl, rfl⟩ := (decode_eq_start_iff w df id).mp h
  exact ⟨hr, hs, fun j => getLsbD_portDf w, fun i j => getLsbD_portId w i⟩

/-- The mask of RESET's row leaves IN[70]. -/
theorem and_rstMask_iff (w : PortWord) :
    w &&& 0x400000000000000000#71 = 0x400000000000000000#71 ↔ portRst w = true := by
  have hmask : 0x400000000000000000#71 = BitVec.twoPow 71 70 := by decide
  rw [hmask, BitVec.and_twoPow, portRst]
  cases w.getLsbD 70 <;> simp [← hmask]

/-- The mask of START's and NOP's rows leaves IN[70:69]: two bits match where both agree. -/
theorem and_startMask_iff (w : PortWord) {m : PortWord} (hm : m &&& 0x600000000000000000#71 = m) :
    w &&& 0x600000000000000000#71 = m ↔ portRst w = portRst m ∧ portStart w = portStart m := by
  have hmask : ∀ b : Fin 71, (0x600000000000000000#71).getLsbD b = decide (b.val = 69 ∨ b.val = 70) := by decide
  rw [← hm]
  constructor
  · intro h
    exact ⟨by simpa [portRst] using congrArg portRst h, by simpa [portStart] using congrArg portStart h⟩
  · rintro ⟨hr, hs⟩
    apply BitVec.eq_of_getLsbD_eq
    intro b hb
    by_cases h : b = 69 ∨ b = 70
    · obtain rfl | rfl := h
      · simpa [portStart] using hs
      · simpa [portRst] using hr
    · simp [hmask ⟨b, hb⟩, h]

/-- Settles O1: the masks of the opcode table's rows are those of IN[70:69], from which alone a word is decoded. -/
theorem decodeFollowsOpcodeTable : Obligations.DecodeFollowsOpcodeTable := by
  unfold Obligations.DecodeFollowsOpcodeTable
  refine ⟨fun w => ⟨?_, ?_, ?_⟩, rfl⟩
  · rw [and_rstMask_iff, decode_eq_reset_iff]
  · rw [and_startMask_iff w (by decide), decode_eq_start_iff]
    exact ⟨fun ⟨hr, hs⟩ => ⟨hr, hs, rfl, rfl⟩, fun ⟨hr, hs, _⟩ => ⟨hr, hs⟩⟩
  · rw [and_startMask_iff w (by decide), decode_eq_nop_iff]
    rfl

/-- Settles O5: each word is decoded as it stands. -/
theorem specWordsDecode : Obligations.SpecWordsDecode := by
  unfold Obligations.SpecWordsDecode
  decide

/-- A number below `2^71` decodes as the port word it is. -/
theorem decodeNat_of_lt {w : Nat} (h : w < 2 ^ 71) : decodeNat w = .ok (decode (BitVec.ofNat 71 w)) := if_pos h

/-- A number from `2^71` up is refused. -/
theorem decodeNat_of_le {w : Nat} (h : 2 ^ 71 ≤ w) : decodeNat w = .error .notAPortWord := if_neg (Nat.not_lt.mpr h)

/-- Settles O6: the table's decoder is `decodeNat` without the name of the refusal. -/
theorem numbersDecode : Obligations.NumbersDecode := by
  unfold Obligations.NumbersDecode
  intro nbits w
  constructor
  · intro h
    rw [decodeTableWord, decodeNat_of_lt h]
  · intro h
    rw [decodeTableWord, decodeNat_of_le h]
    exact ⟨rfl, rfl⟩

end Sys2Proof

namespace Sys2Proof.Machine

/-- Settles O7: a planned word in the host's turn, and COMPLETE in the block's. -/
theorem stepRunsDecodedWord : Obligations.StepRunsDecodedWord :=
  ⟨fun _ _ _ hp ht => step_planned ht hp, fun _ => step_complete⟩

/-- Settles O48: with `valid` 1 the WAIT's turn is a NOP; with 0 nothing is handed over and no START is ready, so it is a NOP
with the WAIT planned again. -/
theorem waitRepeatsNop : Obligations.WaitRepeatsNop := by
  unfold Obligations.WaitRepeatsNop
  intro s rest hp ht
  rw [step_planned ht hp]
  constructor
  · intro hv
    simp [runAct, actWait, State.readValid, hv]
  · intro hv hn
    rw [handOver_not_valid hv]
    simp only [runAct, actWait, State.readValid, State.takeTurn_valid, hv]
    exact actStartDue_none (startReady_none.mpr hn)

end Sys2Proof.Machine
end

section
/-! The fields of an encoded frame: their bit offsets (30_encoding.md R32) and the identifier's byte map (R34); and the output
port word (R37). -/

namespace Sys2Proof.Machine

/-! ### Offsets -/

/-- The 88 data bits stand above the checksum. -/
theorem encodeFrame_data (cfg : Config) (df : BitVec 5) (id : Ident) :
    (encodeFrame cfg df id).extractLsb' 24 88 = frameData cfg df id := by
  apply BitVec.eq_of_getLsbD_eq
  intro i hi
  rw [BitVec.getLsbD_extractLsb', getLsbD_encodeFrame]
  simp [hi]

/-- Bit `j` of index `i` is bit `6(7 - i) + j` of the packed identifier (41_field_packer.md R47). -/
theorem getLsbD_packIndices (l : Lanes (BitVec 6)) (i : Fin 8) {j : Nat} (hj : j < 6) :
    (packIndices l).getLsbD (6 * (7 - i.val) + j) = (l.get i).getLsbD j := by
  have happ : (packIndices l).getLsbD (6 * (7 - i.val) + j) = BitVec.getLsbD (w := 6 + 6 + 6 + 6 + 6 + 6 + 6 + 6)
      (l.c0 ++ l.c1 ++ l.c2 ++ l.c3 ++ l.c4 ++ l.c5 ++ l.c6 ++ l.c7) (6 * (7 - i.val) + j) := by
    rw [packIndices_eq_append]
  rw [happ]
  fin_cases i <;>
    simp (disch := omega) only [Lanes.get, BitVec.getLsbD_append, if_neg, if_pos] <;>
    congr 1 <;> omega

theorem lanes_get_map {α β : Type} (g : α → β) (l : Lanes α) (i : Fin 8) : (l.map g).get i = g (l.get i) := by
  fin_cases i <;> rfl

/-- The offsets of the data bits, from the start of the frame. -/
theorem frameBit_encodeFrame_data (cfg : Config) (df : BitVec 5) (id : Ident) {k : Nat} (hk : k < 88) :
    frameBit (encodeFrame cfg df id) k = (frameData cfg df id).getLsbD (87 - k) := by
  rw [frameBit, getLsbD_encodeFrame, if_neg (by omega), show 111 - k - 24 = 87 - k by omega]

/-- The offsets of the header byte. -/
theorem frameBit_encodeFrame_header (cfg : Config) (df : BitVec 5) (id : Ident) {k : Nat} (hk : k < 8) :
    frameBit (encodeFrame cfg df id) k = (headerByte df cfg.ca).getLsbD (7 - k) := by
  rw [frameBit_encodeFrame_data _ _ _ (by omega), getLsbD_frameData, if_neg (by omega), if_neg (by omega),
    if_neg (by omega), show 87 - k - 80 = 7 - k by omega]

/-- The offsets of the packed identifier. -/
theorem frameBit_encodeFrame_ident (cfg : Config) (df : BitVec 5) (id : Ident) {k : Nat} (hk : k < 48) :
    frameBit (encodeFrame cfg df id) (40 + k) = (idPack cfg.alphabet id).getLsbD (47 - k) := by
  rw [frameBit_encodeFrame_data _ _ _ (by omega), getLsbD_frameData, if_pos (by omega),
    show 87 - (40 + k) = 47 - k by omega]

/-- Settles O21: each field of `getLsbD_encodeFrame`, read from its most significant bit. -/
theorem frameFieldsByOffset : Obligations.FrameFieldsByOffset := by
  unfold Obligations.FrameFieldsByOffset
  rintro cfg df id f rfl
  refine ⟨fun k hk => ?_, fun k hk => ?_, fun k hk => ?_, fun k hk => ?_, fun i k hk => ?_, fun k hk => ?_⟩
  all_goals simp only [BitVec.getMsbD_eq_getLsbD, hk, decide_true, Bool.true_and]
  · rw [frameBit_encodeFrame_header _ _ _ (by omega), getLsbD_headerByte _ _ _ (by omega), if_neg (by omega),
      show 7 - k - 3 = 5 - 1 - k by omega]
  · rw [frameBit_encodeFrame_header _ _ _ (by omega), getLsbD_headerByte _ _ _ (by omega), if_pos (by omega),
      show 7 - (5 + k) = 3 - 1 - k by omega]
  · rw [frameBit_encodeFrame_data _ _ _ (by omega), getLsbD_frameData, if_neg (by omega), if_neg (by omega),
      if_pos (by omega), show 87 - (8 + k) - 56 = 24 - 1 - k by omega]
  · rw [frameBit_encodeFrame_data _ _ _ (by omega), getLsbD_frameData, if_neg (by omega), if_pos (by omega),
      show 87 - (32 + k) - 48 = 8 - 1 - k by omega]
  · have hi := i.isLt
    rw [Nat.add_assoc, frameBit_encodeFrame_ident _ _ _ (by omega), idPack, identIndices,
      show 47 - (6 * i.val + k) = 6 * (7 - i.val) + (6 - 1 - k) by omega, getLsbD_packIndices _ _ (by omega),
      lanes_get_map]
  · rw [encodeFrame_data, frameBit, getLsbD_encodeFrame, if_pos (by omega),
      show 111 - (88 + k) = 24 - 1 - k by omega]

/-! ### The byte map -/

/-- Bytes 5 to 10 of an encoded frame are those of the packed identifier (41_field_packer.md R51). -/
theorem frameByte_encodeFrame_ident (cfg : Config) (df : BitVec 5) (id : Ident) {m : Nat} (hm : m < 6) :
    frameByte (encodeFrame cfg df id) (5 + m) = (idPack cfg.alphabet id).extractLsb' (40 - 8 * m) 8 := by
  apply BitVec.eq_of_getLsbD_eq
  intro j hj
  rw [frameByte_getLsbD _ _ hj, getLsbD_encodeFrame, if_neg (by omega), getLsbD_frameData, if_pos (by omega),
    BitVec.getLsbD_extractLsb']
  simp only [hj, decide_true, Bool.true_and]
  congr 1
  omega

/-- Bits `a` to `a + n - 1` of index `i`, in their place in the packed identifier. -/
theorem extractLsb'_packIndices (l : Lanes (BitVec 6)) (i : Fin 8) {a n : Nat} (h : a + n ≤ 6) :
    (packIndices l).extractLsb' (6 * (7 - i.val) + a) n = (l.get i).extractLsb' a n := by
  apply BitVec.eq_of_getLsbD_eq
  intro j hj
  rw [BitVec.getLsbD_extractLsb', BitVec.getLsbD_extractLsb', Nat.add_assoc, getLsbD_packIndices l i (by omega)]

/-- A cut that takes the low `m` bits of an index and the high `n` bits of the next (R34). -/
theorem extractLsb'_packIndices_pair (l : Lanes (BitVec 6)) (i k : Fin 8) {m n : Nat} (hk : k.val = i.val + 1)
    (hm : m ≤ 6) (hn : n ≤ 6) :
    (packIndices l).extractLsb' (6 * (7 - k.val) + (6 - n)) (m + n) =
      (l.get i).extractLsb' 0 m ++ (l.get k).extractLsb' (6 - n) n := by
  rw [← extractLsb'_packIndices l i (by omega), ← extractLsb'_packIndices l k (by omega)]
  have hi := k.isLt
  exact (BitVec.extractLsb'_append_extractLsb'_eq_extractLsb' (by omega)).symm

/-- Settles O22: every byte is one cut of `extractLsb'_packIndices_pair`. -/
theorem identifierByteMap : Obligations.IdentifierByteMap := by
  unfold Obligations.IdentifierByteMap
  rintro cfg df id f I rfl rfl
  have byte (m : Nat) (hm : m < 6) := frameByte_encodeFrame_ident cfg df id hm
  have cut (i k : Fin 8) (m n : Nat) :=
    extractLsb'_packIndices_pair (id.map (charEnc cfg.alphabet)) i k (m := m) (n := n)
  have full (i : Fin 8) := BitVec.extractLsb'_eq_self (x := (id.map (charEnc cfg.alphabet)).get i)
  refine ⟨?_, ?_, ?_, ?_, ?_, ?_⟩
  · exact (byte 0 (by omega)).trans ((cut 0 1 6 2 rfl (by omega) (by omega)).trans (by rw [full]; rfl))
  · exact (byte 1 (by omega)).trans (cut 1 2 4 4 rfl (by omega) (by omega))
  · exact (byte 2 (by omega)).trans ((cut 2 3 2 6 rfl (by omega) (by omega)).trans (by rw [full]; rfl))
  · exact (byte 3 (by omega)).trans ((cut 4 5 6 2 rfl (by omega) (by omega)).trans (by rw [full]; rfl))
  · exact (byte 4 (by omega)).trans (cut 5 6 4 4 rfl (by omega) (by omega))
  · exact (byte 5 (by omega)).trans ((cut 6 7 2 6 rfl (by omega) (by omega)).trans (by rw [full]; rfl))

/-! ### The output port word -/

section
variable (s : State)

/-- OUT[0] (R37). -/
theorem outBit_valid : s.outBit 0 = some s.valid := rfl

/-- OUT[24:1] (R37). -/
theorem outBit_crc {j : Nat} (hj : j < 24) : s.outBit (1 + j) = s.crcOut.map fun c => c.getLsbD j := by
  rw [State.outBit, if_neg (by omega), if_pos (by omega), Nat.add_sub_cancel_left]

/-- OUT[136:25]: byte `i` of FRAME (R37). -/
theorem outBit_frame {i j : Nat} (hi : i < 14) (hj : j < 8) :
    s.outBit (25 + 8 * (13 - i) + j) = (s.fb.read? i).map fun b => b.getLsbD j := by
  have hbyte : 13 - (25 + 8 * (13 - i) + j - 25) / 8 = i := by omega
  have hbit : (25 + 8 * (13 - i) + j - 25) % 8 = j := by omega
  rw [State.outBit, if_neg (by omega), if_neg (by omega), if_pos (by omega), hbyte, hbit]

end

/-- The `crc` output of an FB that holds a whole frame. -/
theorem crcOut_whole {s : State} {f : Frame} (hf : s.fb = frameCells f) : s.crcOut = some (f.extractLsb' 0 24) := by
  rw [State.crcOut, hf, value?_frameCells_crc]

/-- Every bit of OUT over an FB that holds a whole frame. -/
theorem outBit_whole {s : State} {f : Frame} (hf : s.fb = frameCells f) {k : Nat} (hk : k < 137) :
    s.outBit k = some ((f ++ f.extractLsb' 0 24 ++ BitVec.ofBool s.valid).getLsbD k) := by
  simp only [BitVec.getLsbD_append]
  by_cases h0 : k < 1
  · obtain rfl : k = 0 := by omega
    simp [outBit_valid]
  by_cases h24 : k < 25
  · have h := outBit_crc s (j := k - 1) (by omega)
    rw [show 1 + (k - 1) = k by omega, crcOut_whole hf] at h
    rw [h, if_neg h0, if_pos (by omega), Option.map_some]
  · have h := outBit_frame s (i := 13 - (k - 25) / 8) (j := (k - 25) % 8) (by omega) (by omega)
    rw [show 25 + 8 * (13 - (13 - (k - 25) / 8)) + (k - 25) % 8 = k by omega, hf, read?_frameCells, if_pos (by omega)] at h
    rw [h, if_neg h0, if_neg (by omega), Option.map_some, frameByte_getLsbD _ _ (by omega)]
    congr 2
    omega

/-- OUT as one value over an FB that holds a whole frame. -/
theorem outWord_whole {s : State} {f : Frame} (hf : s.fb = frameCells f) :
    s.outWord = some (f ++ f.extractLsb' 0 24 ++ BitVec.ofBool s.valid) := by
  unfold State.outWord
  rw [frameOut_whole hf, crcOut_whole hf]

/-- Settles O42: the three parts of OUT bit by bit, and the word of those bits where FB holds a whole frame. -/
theorem outputWordLayout : Obligations.OutputWordLayout := by
  unfold Obligations.OutputWordLayout
  intro s
  refine ⟨fun i j hi hj => outBit_frame s hi hj, fun j hj => outBit_crc s hj, outBit_valid s, fun f hf => ?_⟩
  exact ⟨_, outWord_whole hf, rfl, fun k hk => outBit_whole hf hk⟩

end Sys2Proof.Machine
end

section
/-! The Character Encoder (40_char_encoder.md R42 to R45): what the search returns over any table, and what the constraints of
10_state.md R13 make of it. -/

namespace Sys2Proof.Machine

/-! ### What a legal alphabet holds -/

section
variable {a : Alphabet} {c : Byte} {i j : Nat}

theorem mem_assignedCodes : c ∈ assignedCodes a ↔ ∃ i : Nat, a[i]? = some (some c) := by
  simp [assignedCodes, List.mem_filterMap, Vector.mem_iff_getElem?]

theorem alphabet_legal_iff : a.Legal = true ↔
    a.spaceAt32 = true ∧ a.distinct = true ∧ a.lettersAndDigits = true ∧ a.classesOnly = true := by
  simp [Alphabet.Legal, and_assoc]

/-- R13 (a). -/
theorem entry_space (ha : a.Legal = true) : a[32]? = some (some 0x20#8) := by
  obtain ⟨hspace, -, -, -⟩ := alphabet_legal_iff.mp ha
  simpa [Alphabet.spaceAt32] using hspace

/-- R13 (b): one code stands at one index at most. -/
theorem entry_unique (ha : a.Legal = true) (hi : a[i]? = some (some c)) (hj : a[j]? = some (some c)) :
    i = j := by
  obtain ⟨-, hdistinct, -, -⟩ := alphabet_legal_iff.mp ha
  have hpairs : a.toList.Pairwise fun e e' => ∀ d, e = some d → ∀ d', e' = some d' → d ≠ d' := by
    simpa [Alphabet.distinct, assignedCodes, List.Nodup, List.pairwise_filterMap] using hdistinct
  have apart {m n : Nat} (hmn : m < n) (hm : a[m]? = some (some c)) (hn : a[n]? = some (some c)) : False := by
    obtain ⟨hm', hm⟩ := Vector.getElem?_eq_some_iff.mp hm
    obtain ⟨hn', hn⟩ := Vector.getElem?_eq_some_iff.mp hn
    exact List.pairwise_iff_getElem.mp hpairs m n (by simpa) (by simpa) hmn c (by simpa) c (by simpa) rfl
  obtain hlt | heq | hgt := Nat.lt_trichotomy i j
  · exact (apart hlt hi hj).elim
  · exact heq
  · exact (apart hgt hj hi).elim

/-- R13 (c), read as its last paragraph does: no class of R13 holds a code it rules out. -/
theorem no_entry_of_neverAssigned (ha : a.Legal = true) (hc : neverAssigned c = true) (i : Nat) :
    a[i]? ≠ some (some c) := by
  intro h
  obtain ⟨-, -, -, hclasses⟩ := alphabet_legal_iff.mp ha
  have hclass := List.all_eq_true.mp hclasses c (mem_assignedCodes.mpr ⟨i, h⟩)
  have disjoint : ∀ d : Byte, neverAssigned d = true →
      (isUpperLetter d || isDigitCode d || d == 0x20#8 || isPunctuation d) = false := by decide
  simp [disjoint c hc] at hclass

end

/-! ### What the search returns -/

/-- CHAR_ENC over any table: the least index whose entry is the code, or 32 where no entry is (R42, R43). -/
theorem charEnc_cases (a : Alphabet) (c : Byte) :
    (∃ i, i < 64 ∧ a[i]? = some (some c) ∧ (∀ j, j < i → a[j]? ≠ some (some c)) ∧ charEnc a c = BitVec.ofNat 6 i) ∨
      ((∀ i : Nat, a[i]? ≠ some (some c)) ∧ charEnc a c = 32#6) := by
  unfold charEnc
  cases hfind : a.toList.findIdx? fun e => e == some c with
  | some i =>
    obtain ⟨hi, hmatch, hleast⟩ := List.findIdx?_eq_some_iff_getElem.mp hfind
    have hi' : i < 64 := by simpa using hi
    refine .inl ⟨i, hi', ?_, fun j hj => ?_, rfl⟩
    · simpa [hi'] using hmatch
    · simpa [hj.trans hi'] using hleast j hj
  | none =>
    have hno := List.findIdx?_eq_none_iff.mp hfind
    refine .inr ⟨fun i h => ?_, rfl⟩
    have hmem : some c ∈ a.toList := List.mem_of_getElem? (i := i) (by simpa using h)
    simpa using hno _ hmem

/-- R45 (b), over any table. -/
theorem charEnc_of_no_entry {a : Alphabet} {c : Byte} (h : ∀ i : Nat, a[i]? ≠ some (some c)) : charEnc a c = 32#6 := by
  obtain ⟨i, -, hi, -⟩ | ⟨-, henc⟩ := charEnc_cases a c
  · exact absurd hi (h i)
  · exact henc

/-- The result of CHAR_ENC is an index of the code itself, or 32 (R42). -/
theorem entry_charEnc_or (a : Alphabet) (c : Byte) :
    a[(charEnc a c).toNat]? = some (some c) ∨ charEnc a c = 32#6 := by
  obtain ⟨i, hlt, hi, -, henc⟩ | ⟨-, henc⟩ := charEnc_cases a c
  · left
    rwa [henc, BitVec.toNat_ofNat, Nat.mod_eq_of_lt hlt]
  · exact .inr henc

section
variable {a : Alphabet} (ha : a.Legal = true)
include ha

/-- R45 (a). -/
theorem charEnc_of_entry {i : Nat} {c : Byte} (h : a[i]? = some (some c)) : charEnc a c = BitVec.ofNat 6 i := by
  obtain ⟨j, -, hj, -, henc⟩ | ⟨hno, -⟩ := charEnc_cases a c
  · rw [henc, entry_unique ha hj h]
  · exact absurd h (hno i)

theorem charEnc_space : charEnc a 0x20#8 = 32#6 := charEnc_of_entry ha (entry_space ha)

/-- The index CHAR_ENC returns is assigned: to the code, or, at 32, to space (R42). -/
theorem exists_entry_charEnc (c : Byte) : ∃ d, a[(charEnc a c).toNat]? = some (some d) := by
  obtain h | henc := entry_charEnc_or a c
  · exact ⟨c, h⟩
  · exact ⟨0x20#8, by rw [henc]; exact entry_space ha⟩

end

/-- Only 32 is returned for more than one code, in any table (R42). -/
theorem eq_of_charEnc_eq {a : Alphabet} {c d : Byte} (h : charEnc a c = charEnc a d) : c = d ∨ charEnc a c = 32#6 := by
  obtain hc | hc := entry_charEnc_or a c
  · obtain hd | hd := entry_charEnc_or a d
    · rw [h, hd] at hc
      exact .inl (Option.some.inj (Option.some.inj hc)).symm
    · exact .inr (h.trans hd)
  · exact .inr hc

/-- Settles O17: the operation's two outcomes are those of `charEnc_cases`; the corner cases follow from R13's constraints. -/
theorem charEncResult : Obligations.CharEncResult := by
  unfold Obligations.CharEncResult
  refine ⟨fun c s => ?_, fun a ha => ⟨charEnc_space ha, fun c hc => ?_, fun c d => eq_of_charEnc_eq, fun c h => ?_⟩, ?_⟩
  · exact ⟨Datapath.ofCharEnc s.cfg c, charEnc s.cfg.alphabet c, rfl, rfl, charEnc_cases s.cfg.alphabet c⟩
  · exact charEnc_of_no_entry (no_entry_of_neverAssigned ha hc)
  · obtain ⟨d, hd⟩ := exists_entry_charEnc ha c
    simp [hd] at h
  · exact charEnc_of_entry Alphabet.ref_legal (i := 11) (by decide)

/-- Settles O18: (a) and (b) are the two outcomes of the search, and an assigned index is the result of its own code. -/
theorem charEncLaws : Obligations.CharEncLaws := by
  unfold Obligations.CharEncLaws
  refine fun a ha => ⟨fun i c => charEnc_of_entry ha, fun c => charEnc_of_no_entry, fun r => ⟨?_, ?_⟩⟩
  · rintro ⟨c, rfl⟩
    exact exists_entry_charEnc ha c
  · rintro ⟨c, hc⟩
    exact ⟨c, (charEnc_of_entry ha hc).trans (by simp)⟩

end Sys2Proof.Machine
end

section
/-! The transactions and COMPLETE (41_field_packer.md R54 to R56), the inputs that decide the frame (R53), and the boundary that
refuses what the port cannot carry (R59). -/

namespace Sys2Proof.Machine

/-! ### START and NOP -/

/-- Settles O12: in each phase, what START does there. -/
theorem startResult : Obligations.StartResult := by
  unfold Obligations.StartResult
  refine fun s df id => ⟨fun hp => ?_, fun hp => execStart_busy hp df id⟩
  exact ⟨_, execStart_idle hp df id, rfl, lanes_get_map some id, rfl, rfl, rfl, rfl, rfl, rfl⟩

/-- Settles O13: such a word has neither request bit. -/
theorem nopResult : Obligations.NopResult :=
  ⟨fun w hr hs => (decode_eq_nop_iff w).mpr ⟨hr, hs⟩, fun _ => rfl⟩

/-! ### COMPLETE -/

/-- Each byte of FB after a commit of a whole frame, whatever FB held before. -/
theorem Memory.read?_of_commit {m m' : Memory} {f : Frame} (h : m.memWrite 0 14 f = .ok m') {i : Nat} (hi : i < 14) :
    m'.read? i = some (frameByte f i) := by
  obtain ⟨-, hbytes, -, -⟩ := Memory.memWrite_spec h
  have hb := hbytes i hi
  rwa [Nat.zero_add] at hb

/-- Settles O14: COMPLETE commits by one `MemWrite` of all 14 bytes. -/
theorem completeResult : Obligations.CompleteResult := by
  unfold Obligations.CompleteResult
  intro s df id hp hc
  obtain ⟨m, hm, he⟩ := execComplete_busy hp hc
  obtain ⟨-, -, hother, -⟩ := Memory.memWrite_spec hm
  exact ⟨_, he, fun i => Memory.read?_of_commit hm, fun a ha => hother a (.inr (by omega)), rfl, rfl, rfl, rfl, rfl, rfl,
    rfl, rfl, rfl⟩

/-- Settles O37: each commit is a `MemWrite` of the encoding of the captured inputs, whatever FB held before. -/
theorem capturedInputsDecideTheFrame : Obligations.CapturedInputsDecideTheFrame := by
  unfold Obligations.CapturedInputsDecideTheFrame
  intro s s' t t' hcfg hcap h h' a ha
  obtain ⟨-, df, id, m, hc, hm, rfl⟩ := execComplete_next h
  obtain ⟨-, df', id', m', hc', hm', rfl⟩ := execComplete_next h'
  obtain ⟨rfl, rfl⟩ : df = df' ∧ id = id' := by simpa [← hcap, hc] using hc'
  rw [← hcfg] at hm'
  exact (Memory.read?_of_commit hm ha).trans (Memory.read?_of_commit hm' ha).symm

theorem execComplete_idle {s : State} (h : s.phase = .idle) : exec .complete s = .refused .completeNotEnabled := by
  simp only [exec, execComplete, h]

theorem execComplete_noval {s : State} (h : s.phase = .busy) (hc : s.captured? = none) :
    exec .complete s = .fault .captureNoval := by
  simp only [exec, execComplete, h, hc]

/-- Everything COMPLETE can do: refused in IDLE, and in BUSY a fault where an input is missing and an answer where none is. -/
theorem execComplete_cases (s : State) :
    (s.phase = .idle ∧ exec .complete s = .refused .completeNotEnabled) ∨
    (s.phase = .busy ∧ s.captured? = none ∧ exec .complete s = .fault .captureNoval) ∨
    (s.phase = .busy ∧ s.captured? ≠ none ∧ ∃ t, exec .complete s = .next t) := by
  cases hp : s.phase with
  | idle => exact .inl ⟨rfl, execComplete_idle hp⟩
  | busy =>
    cases hc : s.captured? with
    | none => exact .inr (.inl ⟨rfl, rfl, execComplete_noval hp hc⟩)
    | some c =>
      obtain ⟨m, -, he⟩ := execComplete_busy hp hc
      exact .inr (.inr ⟨rfl, nofun, _, he⟩)

/-! ### What a host turn can be refused for -/

/-- The two names the boundary refuses by (R59). -/
theorem portInputs_error {df : Nat} {codes : List Byte} {r : Refusal} (h : portInputs df codes = .error r) :
    r = .dfOutOfRange ∨ r = .identifierLength := by
  unfold portInputs at h
  split at h
  · exact .inl (Except.error.inj h).symm
  · split at h
    · exact .inr (Except.error.inj h).symm
    · exact nomatch h

/-- No port word is refused (30_encoding.md R39). -/
theorem exec_decode_ne_refused (w : PortWord) (s : State) (r : Refusal) : exec (decode w) s ≠ .refused r := by
  obtain ⟨-, he⟩ | ⟨_, _, -, -, he⟩ | ⟨-, -, he⟩ := exec_decode_cases w s <;> rw [he] <;> nofun

theorem actStartDue_ne_refused (s : State) (r : Refusal) : actStartDue s ≠ .refused r := by
  cases hr : s.startReady? with
  | none => rw [actStartDue_none hr]; nofun
  | some c => rw [actStartDue_some (c := c.1) (later := c.2) hr]; exact exec_decode_ne_refused _ _ r

/-- An act of the host is refused at the boundary only. -/
theorem runAct_refused {a : HostAct} {s : State} {r : Refusal} (h : runAct a s = .refused r) :
    r = .dfOutOfRange ∨ r = .identifierLength := by
  cases a with
  | drive w => exact absurd h (exec_decode_ne_refused w s r)
  | start df id =>
    simp only [runAct, actStart] at h
    split at h
    · cases h
      exact portInputs_error ‹_›
    · exact absurd h (exec_decode_ne_refused _ _ r)
  | wait =>
    simp only [runAct, actWait] at h
    split at h
    · exact nomatch h
    · exact absurd h (actStartDue_ne_refused _ r)
  | read sel =>
    simp only [runAct, actRead] at h
    split at h <;> exact nomatch h
  | readByte b =>
    simp only [runAct, actReadByte] at h
    split at h <;> exact nomatch h
  | poll => exact absurd h (actStartDue_ne_refused s r)
  | beginTx df text =>
    simp only [runAct, actBegin] at h
    split at h
    · exact nomatch h
    · split at h
      · cases h
        exact portInputs_error ‹_›
      · exact absurd h (actStartDue_ne_refused _ r)
  | report p => exact nomatch h
  | reportInt v => exact nomatch h
  | timeout =>
    simp only [runAct, actTimeout] at h
    split at h <;> exact nomatch h

/-- A step asks for COMPLETE only where it is enabled (60_exceptions.md R73). -/
theorem step_ne_completeNotEnabled (s : State) : step s ≠ .refused .completeNotEnabled := by
  intro h
  by_cases hc : s.phase = .busy ∧ s.wait = 0
  · rw [step_complete hc.1 hc.2] at h
    obtain ⟨hp, -⟩ | ⟨-, -, he⟩ | ⟨-, -, _, he⟩ := execComplete_cases s
    · exact nomatch hc.1.symm.trans hp
    · exact nomatch he.symm.trans h
    · exact nomatch he.symm.trans h
  · rw [step_host hc] at h
    obtain hr | hr := runAct_refused h <;> exact nomatch hr

/-- Settles O15: the outcomes of `execComplete_cases` exclude each other, and a step asks for COMPLETE in BUSY only. -/
theorem completeStops : Obligations.CompleteStops := by
  unfold Obligations.CompleteStops
  refine ⟨fun s => ?_, fun s => ?_, step_ne_completeNotEnabled⟩
  all_goals obtain ⟨hp, he⟩ | ⟨hp, hc, he⟩ | ⟨hp, hc, t, he⟩ := execComplete_cases s <;> simp [*]

/-! ### The boundary -/

theorem portInputs_dfOutOfRange {df : Nat} (h : 31 < df) (codes : List Byte) :
    portInputs df codes = .error .dfOutOfRange := if_pos h

theorem portInputs_identifierLength {df : Nat} {codes : List Byte} (hd : df ≤ 31) (hl : codes.length ≠ 8) :
    portInputs df codes = .error .identifierLength := by
  have hnone : identOfList? codes = none := by
    rwa [← Option.not_isSome_iff_eq_none, identOfList_isSome]
  rw [portInputs, if_neg (by omega), hnone]

theorem decode_startWord (df : BitVec 5) (id : Ident) : decode (startWord df id) = .start df id := by
  simp [decode_eq_start_iff]

/-- Settles O47: a script START is its boundary, and then the START of the inputs that pass it. -/
theorem boundaryRefusesOrStarts : Obligations.BoundaryRefusesOrStarts := by
  unfold Obligations.BoundaryRefusesOrStarts
  intro s df id rest hp ht
  rw [step_planned ht hp, runAct, actStart]
  refine ⟨fun hd => ?_, fun hd hl => ?_, fun hd hl => ?_⟩
  · rw [portInputs_dfOutOfRange hd]
  · rw [portInputs_identifierLength hd hl]
  · obtain ⟨i, hi⟩ := Option.isSome_iff_exists.mp ((identOfList_isSome id).mpr hl)
    rw [portInputs_fit hd hi]
    exact ⟨i, identOfList_get hi, congrArg (exec · _) (decode_startWord _ i)⟩

/-- Padding does not shorten a text. -/
theorem length_padIdent_of_long {text : List Byte} (h : 8 < text.length) : (padIdent text).length ≠ 8 := by
  simp only [padIdent, List.length_append, List.length_replicate]
  omega

/-- Settles O51: a BEGIN in Idle looks at the boundary first. -/
theorem beginBoundary : Obligations.BeginBoundary := by
  unfold Obligations.BeginBoundary
  intro s df text rest hp ht htx
  have htx' : (s.handOver.takeTurn rest).host.tx = .idle := by simpa using htx
  rw [step_planned ht hp]
  simp only [runAct, actBegin, htx']
  refine ⟨fun hd => ?_, fun hd hl => ?_⟩
  · rw [portInputs_dfOutOfRange hd]
  · rw [portInputs_identifierLength hd (length_padIdent_of_long hl)]

end Sys2Proof.Machine
end

section
/-! The Frame Encoder's operations (41_field_packer.md R47 to R52), and the characters the alphabet does not hold (R59 (b)). -/

namespace Sys2Proof.Machine

/-! ### ID_PACK -/

/-- Index `i` of the packed identifier, in bits 47-6i to 42-6i (R47). -/
theorem extractLsb'_idPack (a : Alphabet) (id : Ident) (i : Fin 8) :
    (idPack a id).extractLsb' (42 - 6 * i.val) 6 = charEnc a (id.get i) := by
  have hi := i.isLt
  rw [idPack, show 42 - 6 * i.val = 6 * (7 - i.val) + 0 by omega, extractLsb'_packIndices _ i (by omega),
    BitVec.extractLsb'_eq_self, identIndices, lanes_get_map]

/-- A space, and a code the alphabet does not hold, have index 32 (40_char_encoder.md R42). -/
theorem charEnc_blank {a : Alphabet} (ha : a.Legal = true) {c : Byte}
    (h : c = 0x20#8 ∨ ∀ k : Nat, a[k]? ≠ some (some c)) : charEnc a c = 32#6 := by
  obtain rfl | h := h
  · exact charEnc_space ha
  · exact charEnc_of_no_entry h

/-- Settles O19: the lanes of ACC and IDX, and eight times index 32. -/
theorem idPackResult : Obligations.IdPackResult := by
  unfold Obligations.IdPackResult
  refine ⟨fun id s => ?_, fun a id ha h => ?_, by decide⟩
  · refine ⟨Datapath.ofIdPack s.cfg id, _, rfl, rfl, fun i => ⟨extractLsb'_idPack _ _ i, ?_⟩⟩
    simp only [Datapath.ofIdPack, identIndices, lanes_get_map]
  · have hblank : identIndices a id = Lanes.fill 32#6 := Lanes.ext_get fun i => by
      rw [identIndices, lanes_get_map, lanes_get_fill, charEnc_blank ha (h i)]
    rw [idPack, hblank]
    decide

/-! ### ENCODE_FRAME -/

/-- The header byte stands in bits 111 to 104 (R49). -/
theorem encodeFrame_header (cfg : Config) (df : BitVec 5) (id : Ident) :
    (encodeFrame cfg df id).extractLsb' 104 8 = headerByte df cfg.ca := by
  apply BitVec.eq_of_getLsbD_eq
  intro j hj
  rw [BitVec.getLsbD_extractLsb', getLsbD_encodeFrame, if_neg (by omega), getLsbD_frameData, if_neg (by omega),
    if_neg (by omega), if_neg (by omega), show 104 + j - 24 - 80 = j by omega]
  simp [hj]

/-- The Station Address stands in bits 103 to 80 (R50). -/
theorem encodeFrame_aa (cfg : Config) (df : BitVec 5) (id : Ident) :
    (encodeFrame cfg df id).extractLsb' 80 24 = cfg.aa := by
  apply BitVec.eq_of_getLsbD_eq
  intro j hj
  rw [BitVec.getLsbD_extractLsb', getLsbD_encodeFrame, if_neg (by omega), getLsbD_frameData, if_neg (by omega),
    if_neg (by omega), if_pos (by omega), show 80 + j - 24 - 56 = j by omega]
  simp [hj]

/-- The Type-Code byte stands in bits 79 to 72 (R50). -/
theorem encodeFrame_tcb (cfg : Config) (df : BitVec 5) (id : Ident) :
    (encodeFrame cfg df id).extractLsb' 72 8 = cfg.tcb := by
  apply BitVec.eq_of_getLsbD_eq
  intro j hj
  rw [BitVec.getLsbD_extractLsb', getLsbD_encodeFrame, if_neg (by omega), getLsbD_frameData, if_neg (by omega),
    if_pos (by omega), show 72 + j - 24 - 48 = j by omega]
  simp [hj]

/-- A byte of a frame inside a field of n bits that ends at bit a. -/
theorem frameByte_of_field {f : Frame} {a n : Nat} {x : BitVec n} (hx : f.extractLsb' a n = x) {i b : Nat}
    (hi : 8 * (13 - i) = a + b) (hb : b + 8 ≤ n) : frameByte f i = x.extractLsb' b 8 := by
  subst hx
  apply BitVec.eq_of_getLsbD_eq
  intro j hj
  rw [frameByte_getLsbD f i hj, hi, BitVec.getLsbD_extractLsb', BitVec.getLsbD_extractLsb', Nat.add_assoc]
  simp [hj, show b + j < n by omega]

/-- Settles O20: every byte is cut from its field. -/
theorem encodeFrameResult : Obligations.EncodeFrameResult := by
  unfold Obligations.EncodeFrameResult
  refine ⟨fun df id s => ?_, by decide +kernel⟩
  have header := encodeFrame_header s.cfg df id
  have aa := encodeFrame_aa s.cfg df id
  have tcb := encodeFrame_tcb s.cfg df id
  refine ⟨Datapath.ofEncodeFrame s.cfg df id, _, rfl, rfl, rfl, header, ?_, ?_, ?_, tcb, fun m hm => ?_,
    fun m hm => ?_⟩
  · exact frameByte_of_field aa (by omega) (by omega)
  · exact frameByte_of_field aa (by omega) (by omega)
  · exact frameByte_of_field aa (by omega) (by omega)
  · exact frameByte_encodeFrame_ident s.cfg df id hm
  · rw [encodeFrame_data]
    exact frameByte_of_field (encodeFrame_crc s.cfg df id) (by omega) (by omega)

/-! ### Unknown characters -/

/-- The identifier enters the frame by its indices only (R47, R48). -/
theorem encodeFrame_congr {cfg : Config} {id id' : Ident}
    (h : identIndices cfg.alphabet id' = identIndices cfg.alphabet id) (df : BitVec 5) :
    encodeFrame cfg df id' = encodeFrame cfg df id := by
  simp only [encodeFrame, frameData, idPack, h]

/-- Settles O24: such a code has the index of a space. -/
theorem unknownCharactersEncodeAsSpace : Obligations.UnknownCharactersEncodeAsSpace := by
  unfold Obligations.UnknownCharactersEncodeAsSpace
  refine fun cfg hcfg => ⟨fun df id id' h => ?_, fun c hc => no_entry_of_neverAssigned hcfg hc⟩
  refine encodeFrame_congr (Lanes.ext_get fun i => ?_) df
  rw [identIndices, identIndices, lanes_get_map, lanes_get_map]
  obtain hsame | ⟨hno, hspace⟩ := h i
  · rw [hsame]
  · rw [hspace, charEnc_space hcfg, charEnc_of_no_entry hno]

end Sys2Proof.Machine
end

section
/-! The Checksum Engine (42_crc24.md R60 to R63, R65): its divisor, its scan bit by bit, its corner cases, and its linearity over
XOR. -/

namespace Sys2Proof.Machine

/-! ### The divisor pattern (R60, R62) -/

/-- `g[j]` stands at bit 24 - j of the pattern. -/
theorem divisorBit_eq_getLsbD (o : GenOrient) {j : Nat} (hj : j < 25) :
    divisorBit o j = (divisor o).getLsbD (24 - j) := by
  cases o with
  | lsbAtCurrent =>
    rw [divisorBit, divisor, BitVec.getLsbD_reverse, BitVec.getMsbD_eq_getLsbD, show 25 - 1 - (24 - j) = j by omega]
    simp [show 24 - j < 25 by omega]
  | msbAtCurrent => rfl

/-- `g[0]` = 1 in both orientations: the pattern has degree 24. -/
theorem getLsbD_divisor_top (o : GenOrient) : (divisor o).getLsbD 24 = true := by
  cases o <;> decide

/-- Settles O25: the constants are computed, and the bits of either pattern are the `g[j]` of its orientation. -/
theorem divisorPatterns : Obligations.DivisorPatterns := by
  unfold Obligations.DivisorPatterns
  refine ⟨by decide, by decide, by decide, fun j hj => ⟨?_, rfl⟩, fun o j hj => divisorBit_eq_getLsbD o hj, rfl⟩
  exact (divisorBit_eq_getLsbD .lsbAtCurrent hj).symm

/-! ### The scan, bit by bit (R63) -/

/-- Every bit of the initial buffer: 24 zeros below the data bits. -/
theorem getLsbD_crcInit (d : BitVec 88) (i : Nat) :
    (crcInit d).getLsbD i = if i < 24 then false else d.getLsbD (i - 24) := by
  rw [crcInit, BitVec.getLsbD_append, BitVec.getLsbD_zero]

/-- The pattern laid against the buffer with `g[0]` at offset p (R62). -/
theorem getLsbD_divisor_shift (o : GenOrient) {p k : Nat} (hp : p < 88) (hk : k < 112) :
    ((divisor o).setWidth 112 <<< (87 - p)).getLsbD (111 - k) =
      (decide (p ≤ k ∧ k ≤ p + 24) && divisorBit o (k - p)) := by
  rw [BitVec.getLsbD_shiftLeft, BitVec.getLsbD_setWidth]
  by_cases hin : p ≤ k ∧ k ≤ p + 24
  · rw [divisorBit_eq_getLsbD o (by omega), show 111 - k - (87 - p) = 24 - (k - p) by omega]
    simp [hin, show 111 - k < 112 by omega, show ¬ 111 - k < 87 - p by omega, show 24 - (k - p) < 112 by omega]
  · by_cases hlow : k < p
    · rw [BitVec.getLsbD_of_ge (divisor o) _ (by omega)]
      simp [hin]
    · simp [hin, show 111 - k < 87 - p by omega]

/-- A scan step at p XORs `g[j]` into `W{p+j}` where `W{p}` is 1, and changes nothing else. -/
theorem getLsbD_crcStep (o : GenOrient) (w : BitVec 112) {p k : Nat} (hp : p < 88) (hk : k < 112) :
    (crcStep o w p).getLsbD (111 - k) =
      ((w.getLsbD (111 - k)) ^^ (w.getLsbD (111 - p) && decide (p ≤ k ∧ k ≤ p + 24) && divisorBit o (k - p))) := by
  unfold crcStep
  split
  case isTrue h => rw [BitVec.getLsbD_xor, getLsbD_divisor_shift o hp hk, h, Bool.true_and]
  case isFalse h => simp [h]

/-- The step at p clears `W{p}`, since `g[0]` = 1. -/
theorem getLsbD_crcStep_same (o : GenOrient) (w : BitVec 112) {p : Nat} (hp : p < 88) :
    (crcStep o w p).getLsbD (111 - p) = false := by
  rw [getLsbD_crcStep o w hp (by omega), Nat.sub_self, divisorBit_eq_getLsbD o (by omega), getLsbD_divisor_top]
  simp

/-- The step at p leaves the offsets before p alone. -/
theorem getLsbD_crcStep_before (o : GenOrient) (w : BitVec 112) {p k : Nat} (hp : p < 88) (hk : k < p) :
    (crcStep o w p).getLsbD (111 - k) = w.getLsbD (111 - k) := by
  rw [getLsbD_crcStep o w hp (by omega)]
  simp [show ¬ p ≤ k by omega]

/-- The scan takes the positions in ascending order. -/
theorem crcScan_eq_foldl (o : GenOrient) (w : BitVec 112) (n : Nat) :
    crcScan o w n = (List.range n).foldl (crcStep o) w := by
  induction n with
  | zero => rfl
  | succ n ih => rw [crcScan, ih, List.range_succ, List.foldl_concat]

/-- After the steps 0 to n-1 the offsets before n are 0. -/
theorem getLsbD_crcScan_scanned (o : GenOrient) (w : BitVec 112) {n k : Nat} (hn : n ≤ 88) (hk : k < n) :
    (crcScan o w n).getLsbD (111 - k) = false := by
  induction n with
  | zero => omega
  | succ n ih =>
    rw [crcScan]
    rcases Nat.lt_succ_iff_lt_or_eq.mp hk with hlt | rfl
    · rw [getLsbD_crcStep_before o _ (by omega) hlt, ih (by omega) hlt]
    · exact getLsbD_crcStep_same o _ (by omega)

/-- The scanned buffer is the remainder below 88 zero bits. -/
theorem getLsbD_crcFinal (o : GenOrient) (d : BitVec 88) (i : Nat) :
    (crcFinal o d).getLsbD i = (crc24 o d).getLsbD i := by
  rw [crc24, BitVec.getLsbD_extractLsb', Nat.zero_add]
  by_cases hlow : i < 24
  · simp [hlow]
  by_cases hi : i < 112
  · have h := getLsbD_crcScan_scanned o (crcInit d) (n := 88) (k := 111 - i) (by omega) (by omega)
    rw [show 111 - (111 - i) = i by omega] at h
    simp [crcFinal, h]
  · simp [BitVec.getLsbD_of_ge (crcFinal o d) i (by omega)]

/-- Settles O26: the buffer's bits before, during and after the scan. -/
theorem crcFollowsScan : Obligations.CrcFollowsScan := by
  unfold Obligations.CrcFollowsScan
  refine ⟨fun d k hk => ?_, fun o w p k hp hk => getLsbD_crcStep o w hp hk, fun o d => crcScan_eq_foldl o _ 88,
    fun o d k hk => getLsbD_crcScan_scanned o _ (by omega) hk, fun o d k hk => ?_⟩
  · rw [getLsbD_crcInit, show 111 - k - 24 = 87 - k by omega]
    by_cases hdata : k < 88
    · rw [if_neg (by omega), if_pos hdata]
    · rw [if_pos (by omega), if_neg hdata]
  · rw [getLsbD_crcFinal, BitVec.getMsbD_eq_getLsbD, show 24 - 1 - k = 111 - (88 + k) by omega]
    simp [hk]

/-! ### The operation and its corner cases (R61) -/

/-- Data with only offset 87 set has the remainder g[1..24] (R61). -/
theorem crc24_one (o : GenOrient) : crc24 o 1#88 = (divisor o).extractLsb' 0 24 := by
  cases o <;> decide +kernel

/-! ### Linearity over XOR (R65) -/

/-- A step is linear: the XOR it makes is chosen by one bit of the buffer. -/
theorem crcStep_xor (o : GenOrient) (v w : BitVec 112) (p : Nat) :
    crcStep o (v ^^^ w) p = crcStep o v p ^^^ crcStep o w p := by
  unfold crcStep
  generalize (divisor o).setWidth 112 <<< (87 - p) = g
  rw [BitVec.getLsbD_xor]
  cases v.getLsbD (111 - p) <;> cases w.getLsbD (111 - p)
  · rfl
  · exact BitVec.xor_assoc v w g
  · change v ^^^ w ^^^ g = v ^^^ g ^^^ w
    ac_rfl
  · change v ^^^ w = v ^^^ g ^^^ (w ^^^ g)
    rw [BitVec.xor_comm w g, BitVec.xor_assoc, ← BitVec.xor_assoc g g w, BitVec.xor_self, BitVec.zero_xor]

theorem crcScan_xor (o : GenOrient) (v w : BitVec 112) (n : Nat) :
    crcScan o (v ^^^ w) n = crcScan o v n ^^^ crcScan o w n := by
  induction n with
  | zero => rfl
  | succ n ih => simp only [crcScan, ih, crcStep_xor]

theorem crcInit_xor (a b : BitVec 88) : crcInit (a ^^^ b) = crcInit a ^^^ crcInit b := by
  apply BitVec.eq_of_getLsbD_eq
  intro i _
  simp only [BitVec.getLsbD_xor, getLsbD_crcInit]
  split <;> rfl

theorem crc24_xor (o : GenOrient) (a b : BitVec 88) : crc24 o (a ^^^ b) = crc24 o a ^^^ crc24 o b := by
  apply BitVec.eq_of_getLsbD_eq
  intro i _
  simp only [BitVec.getLsbD_xor, ← getLsbD_crcFinal, crcFinal, crcInit_xor, crcScan_xor]

theorem crc24_zero (o : GenOrient) : crc24 o 0#88 = 0#24 := by
  simpa using crc24_xor o 0#88 0#88

/-- Settles O29: every part of the computation is linear. -/
theorem crcLinear : Obligations.CrcLinear := by
  unfold Obligations.CrcLinear
  exact fun o a b => ⟨crc24_xor o a b, crc24_zero o⟩

/-- Settles O27: the result stands in `Datapath.ofCrc24`. -/
theorem crc24Result : Obligations.Crc24Result := by
  unfold Obligations.Crc24Result
  refine ⟨fun d s => ⟨Datapath.ofCrc24 s.cfg d, rfl, rfl, rfl⟩, fun o => ⟨crc24_zero o, crc24_one o⟩, ?_, ?_,
    by decide +kernel⟩
  · rw [crc24_one]; rfl
  · rw [crc24_one]; rfl

end Sys2Proof.Machine
end

section
/-! The Checksum Engine as division over GF(2) (42_crc24.md R64, R66). -/

namespace Sys2Proof.Machine

/-! ### The polynomial of a value (R64) -/

open Polynomial

theorem coeff_bitsPoly {w : Nat} (v : BitVec w) (n : Nat) :
    (bitsPoly v).coeff n = if v.getLsbD n then 1 else 0 := by
  have hterm (i : Nat) : (if v.getLsbD i then (X : (ZMod 2)[X]) ^ i else 0).coeff n =
      if n = i then (if v.getLsbD i then 1 else 0) else 0 := by
    cases v.getLsbD i <;> simp [coeff_X_pow]
  rw [bitsPoly, finsetSum_coeff, Finset.sum_congr rfl fun i _ => hterm i, Finset.sum_ite_eq]
  by_cases hn : n < w
  · simp [hn]
  · simp [BitVec.getLsbD_of_ge v n (by omega)]

theorem bitsPoly_congr {m n : Nat} {v : BitVec m} {u : BitVec n} (h : ∀ i, v.getLsbD i = u.getLsbD i) :
    bitsPoly v = bitsPoly u := by
  ext i
  rw [coeff_bitsPoly, coeff_bitsPoly, h]

theorem degree_bitsPoly_lt {w : Nat} (v : BitVec w) : (bitsPoly v).degree < w := by
  rw [degree_lt_iff_coeff_zero]
  intro n hn
  rw [coeff_bitsPoly, BitVec.getLsbD_of_ge v n hn]
  rfl

theorem bitsPoly_zero (w : Nat) : bitsPoly 0#w = 0 := by
  ext i
  rw [coeff_bitsPoly, BitVec.getLsbD_zero]
  rfl

/-- XOR is addition over GF(2). -/
theorem bitsPoly_xor {w : Nat} (u v : BitVec w) : bitsPoly (u ^^^ v) = bitsPoly u + bitsPoly v := by
  ext i
  rw [coeff_add, coeff_bitsPoly, coeff_bitsPoly, coeff_bitsPoly, BitVec.getLsbD_xor]
  cases u.getLsbD i <;> cases v.getLsbD i <;> decide

/-- A shift that loses no bit multiplies by a power of x. -/
theorem bitsPoly_setWidth_shiftLeft {n w s : Nat} (v : BitVec n) (h : n + s ≤ w) :
    bitsPoly (v.setWidth w <<< s) = bitsPoly v * X ^ s := by
  ext i
  rw [coeff_bitsPoly, coeff_mul_X_pow', coeff_bitsPoly, BitVec.getLsbD_shiftLeft, BitVec.getLsbD_setWidth]
  by_cases hi : i < n + s
  · by_cases hs : s ≤ i <;> simp [hs, show i < w by omega, show i - s < w by omega]
  · simp [BitVec.getLsbD_of_ge v (i - s) (by omega)]

/-- Bits put before n others have their degrees raised by n. -/
theorem bitsPoly_append {m n : Nat} (u : BitVec m) (v : BitVec n) :
    bitsPoly (u ++ v) = bitsPoly u * X ^ n + bitsPoly v := by
  ext i
  rw [coeff_add, coeff_mul_X_pow', coeff_bitsPoly, coeff_bitsPoly, coeff_bitsPoly, BitVec.getLsbD_append]
  by_cases hi : i < n
  · simp [hi, show ¬ n ≤ i by omega]
  · simp [hi, show n ≤ i by omega]

/-! ### The divisor's polynomial, and the scan as a division (R64) -/

/-- G(x) is the polynomial of the pattern read as a conventional constant (R62). -/
theorem generatorPoly_eq_bitsPoly (o : GenOrient) : generatorPoly o = bitsPoly (divisor o) := by
  rw [generatorPoly, bitsPoly, ← Finset.sum_range_reflect]
  refine Finset.sum_congr rfl fun j hj => ?_
  have hj : j < 25 := Finset.mem_range.mp hj
  rw [divisorBit_eq_getLsbD o (by omega), show 24 - (25 - 1 - j) = j by omega]

theorem natDegree_generatorPoly_le (o : GenOrient) : (generatorPoly o).natDegree ≤ 24 := by
  rw [generatorPoly_eq_bitsPoly]
  exact natDegree_le_iff_degree_le.mpr (Order.lt_succ_iff.mp (degree_bitsPoly_lt (divisor o)))

theorem coeff_generatorPoly_top (o : GenOrient) : (generatorPoly o).coeff 24 = 1 := by
  rw [generatorPoly_eq_bitsPoly, coeff_bitsPoly, getLsbD_divisor_top, if_pos rfl]

theorem generatorPoly_monic (o : GenOrient) : (generatorPoly o).Monic :=
  monic_of_natDegree_le_of_coeff_eq_one 24 (natDegree_generatorPoly_le o) (coeff_generatorPoly_top o)

theorem natDegree_generatorPoly (o : GenOrient) : (generatorPoly o).natDegree = 24 :=
  natDegree_eq_of_le_of_coeff_ne_zero (natDegree_generatorPoly_le o) (by simp [coeff_generatorPoly_top])

/-- A scan step subtracts a multiple of G(x). -/
theorem crcStep_modByMonic (o : GenOrient) (w : BitVec 112) {p : Nat} (hp : p < 88) :
    bitsPoly (crcStep o w p) %ₘ generatorPoly o = bitsPoly w %ₘ generatorPoly o := by
  unfold crcStep
  split
  · rw [bitsPoly_xor, bitsPoly_setWidth_shiftLeft _ (by omega), ← generatorPoly_eq_bitsPoly, add_modByMonic,
      self_mul_modByMonic (generatorPoly_monic o), add_zero]
  · rfl

theorem crcScan_modByMonic (o : GenOrient) (w : BitVec 112) {n : Nat} (hn : n ≤ 88) :
    bitsPoly (crcScan o w n) %ₘ generatorPoly o = bitsPoly w %ₘ generatorPoly o := by
  induction n with
  | zero => rfl
  | succ n ih => rw [crcScan, crcStep_modByMonic o _ (by omega), ih (by omega)]

/-- R(x) has a smaller degree than G(x), so it is its own remainder. -/
theorem bitsPoly_crc24_modByMonic_self (o : GenOrient) (d : BitVec 88) :
    bitsPoly (crc24 o d) %ₘ generatorPoly o = bitsPoly (crc24 o d) := by
  rw [modByMonic_eq_self_iff (generatorPoly_monic o), degree_eq_natDegree (generatorPoly_monic o).ne_zero,
    natDegree_generatorPoly]
  exact degree_bitsPoly_lt _

/-- R(x) = (D(x) · x^24) mod G(x): the scan starts from D(x) · x^24, keeps the remainder, and ends at R(x). -/
theorem bitsPoly_crc24 (o : GenOrient) (d : BitVec 88) :
    bitsPoly (crc24 o d) = (bitsPoly d * X ^ 24) %ₘ generatorPoly o := by
  have hstart : bitsPoly (crcInit d) = bitsPoly d * X ^ 24 := by
    rw [crcInit, bitsPoly_append, bitsPoly_zero, add_zero]
  calc bitsPoly (crc24 o d)
      = bitsPoly (crc24 o d) %ₘ generatorPoly o := (bitsPoly_crc24_modByMonic_self o d).symm
    _ = bitsPoly (crcFinal o d) %ₘ generatorPoly o := by rw [bitsPoly_congr (getLsbD_crcFinal o d)]
    _ = bitsPoly (crcInit d) %ₘ generatorPoly o := crcScan_modByMonic o _ le_rfl
    _ = (bitsPoly d * X ^ 24) %ₘ generatorPoly o := by rw [hstart]

/-- Settles O28: the scan keeps the remainder modulo G(x). -/
theorem crcIsPolynomialRemainder : Obligations.CrcIsPolynomialRemainder := by
  unfold Obligations.CrcIsPolynomialRemainder
  exact fun o d => ⟨bitsPoly_crc24 o d, degree_bitsPoly_lt _, generatorPoly_monic o, natDegree_generatorPoly o⟩

/-- Settles O30: the frame is D(x) · x^24 + R(x), and over GF(2) the two have equal remainders, which cancel. -/
theorem frameHasZeroResidue : Obligations.FrameHasZeroResidue := by
  unfold Obligations.FrameHasZeroResidue
  intro cfg df id
  rw [encodeFrame, bitsPoly_append, add_modByMonic, ← bitsPoly_crc24, bitsPoly_crc24_modByMonic_self]
  exact CharTwo.add_self_eq_zero _

end Sys2Proof.Machine
end

section
/-! What answers and what stops (60_exceptions.md R70, R71, R85), and which of the two agents takes a step (R73). -/

namespace Sys2Proof.Machine

/-! ### Operations -/

/-- Every operation but COMPLETE answers. -/
theorem exec_answers {i : Instr} (hi : i ≠ .complete) (s : State) : ∃ t, exec i s = .next t := by
  cases i with
  | complete => exact absurd rfl hi
  | start df id =>
    cases hp : s.phase with
    | idle => exact ⟨_, execStart_idle hp df id⟩
    | busy => exact ⟨_, execStart_busy hp df id⟩
  | reset => exact ⟨_, rfl⟩
  | nop => exact ⟨_, rfl⟩
  | encodeFrame df id => exact ⟨_, rfl⟩
  | charEnc c => exact ⟨_, rfl⟩
  | idPack id => exact ⟨_, rfl⟩
  | crc24 d => exact ⟨_, rfl⟩

/-- Under the invariant COMPLETE answers in BUSY: every input is captured. -/
theorem State.Inv.complete_answers {s : State} (hi : s.Inv) (hp : s.phase = .busy) : ∃ t, exec .complete s = .next t := by
  obtain ⟨-, df, id, hc⟩ := hi.busy hp
  obtain ⟨m, -, he⟩ := execComplete_busy hp hc
  exact ⟨_, he⟩

/-- Settles O16: only COMPLETE has a case that stops, and under the invariant its inputs are captured in BUSY. -/
theorem operationsNeverFail : Obligations.OperationsNeverFail :=
  ⟨fun _ s hi => exec_answers hi s, fun _ hi hp => hi.complete_answers hp⟩

/-- A port word answers: it is never COMPLETE (30_encoding.md R38). -/
theorem exec_decode_answers (w : PortWord) (s : State) : ∃ t, exec (decode w) s = .next t := by
  refine exec_answers (fun h => ?_) s
  obtain hd | hd | hd := decode_cases w <;> exact nomatch hd.symm.trans h

/-- The turn of a START that is due answers. -/
theorem actStartDue_answers (s : State) : ∃ t, actStartDue s = .next t := by
  cases hr : s.startReady? with
  | none => exact ⟨s, actStartDue_none hr⟩
  | some c =>
    rw [actStartDue_some (c := c.1) (later := c.2) hr]
    exact exec_decode_answers _ _

/-! ### Reads -/

/-- A read that selects neither `frame` nor `crc` answers, whatever VALID is. -/
theorem sample_of_unselected {s : State} {sel : ReadSel} (hf : sel.frame = false) (hc : sel.crc = false) :
    s.sample sel = .ok { s.host.seen with valid := if sel.valid then some s.valid else s.host.seen.valid } := by
  simp only [State.sample, hf, hc]
  rfl

/-- A read that selects `frame` or `crc` faults while VALID = 0. -/
theorem sample_not_valid {s : State} {sel : ReadSel} (hv : s.valid = false) (h : sel.frame = true ∨ sel.crc = true) :
    s.sample sel = .error .readNotValid := by
  simp only [State.sample, State.readFrame, State.readCrc, readPort_not_valid hv]
  cases hf : sel.frame with
  | true => rfl
  | false =>
    obtain hc : sel.crc = true := h.resolve_left (by simp [hf])
    rw [hc]
    rfl

/-- Settles O43: the sample of the turn, and what the invariant says of VALID. -/
theorem readNotValidFaults : Obligations.ReadNotValidFaults := by
  unfold Obligations.ReadNotValidFaults
  refine ⟨fun s sel rest hp ht hv h => ?_, fun s a rest hp ht hv => ?_, fun s rest hp ht => ?_, fun s hi h => ?_⟩
  · have hx : (s.handOver.takeTurn rest).sample sel = .error .readNotValid := sample_not_valid (by simpa using hv) h
    have hs : step s = .fault .readNotValid := by rw [step_planned ht hp, runAct, actRead, hx]
    exact ⟨hs, fun k => run_succ_fault k hs⟩
  · have hx : (s.handOver.takeTurn rest).readPort a 1 = .error .readNotValid :=
      readPort_not_valid (by simpa using hv) a 1
    rw [step_planned ht hp, runAct, actReadByte, hx]
  · have hx := sample_of_unselected (s := s.handOver.takeTurn rest) (sel := { valid := true }) rfl rfl
    exact ⟨_, (step_planned ht hp).trans (runAct_read_of_sample hx), by simp, sameBlock_hostTurn s rest _⟩
  · cases hv : s.valid with
    | false => rfl
    | true =>
      obtain ⟨a, ha, hn⟩ | hp := h
      · obtain ⟨f, hf⟩ := hi.whole_of_valid hv
        simp [hf, read?_frameCells, ha] at hn
      · exact hv.symm.trans (hi.busy hp).1

/-! ### A host that keeps its duties -/

/-- An act that keeps the duties of R85 answers, where FB holds a whole frame while VALID = 1. -/
theorem runAct_answers {a : HostAct} {s : State} (hw : s.valid = true → ∃ f, s.fb = frameCells f)
    (hk : s.KeepsDuties a) : ∃ t, runAct a s = .next t := by
  obtain ⟨hfit, hread⟩ := hk
  cases a with
  | drive w => exact exec_decode_answers w s
  | start df id =>
    obtain ⟨hd, hl⟩ : df ≤ 31 ∧ id.length = 8 := by simpa [HostAct.WellFormed] using hfit
    obtain ⟨i, hi⟩ := Option.isSome_iff_exists.mp ((identOfList_isSome id).mpr hl)
    simp only [runAct, actStart, portInputs_fit hd hi]
    exact exec_decode_answers _ s
  | wait =>
    simp only [runAct, actWait]
    split
    · exact ⟨s, rfl⟩
    · exact actStartDue_answers _
  | read sel =>
    cases hv : s.valid with
    | true =>
      obtain ⟨f, hf⟩ := hw hv
      exact ⟨_, runAct_read_of_sample (sample_whole sel hv hf)⟩
    | false =>
      obtain ⟨hf, hc⟩ : sel.frame = false ∧ sel.crc = false := by simpa [hv] using hread
      exact ⟨_, runAct_read_of_sample (sample_of_unselected hf hc)⟩
  | readByte b =>
    obtain ⟨f, hf⟩ := hw hread
    have hb : b < 14 := by simpa [HostAct.WellFormed] using hfit
    have hr : s.fb.read? b = some (frameByte f b) := by rw [hf, read?_frameCells, if_pos hb]
    simp only [runAct, actReadByte, readPort_valid hread, Memory.memRead_byte hb hr]
    exact ⟨_, rfl⟩
  | poll => exact actStartDue_answers s
  | beginTx df text =>
    obtain ⟨hd, hl⟩ : df ≤ 31 ∧ text.length ≤ 8 := by simpa [HostAct.WellFormed] using hfit
    obtain ⟨i, hi, -⟩ := padIdent_ident hl
    simp only [runAct, actBegin, portInputs_fit hd hi]
    split
    · exact ⟨s, rfl⟩
    · exact actStartDue_answers _
  | report r => exact ⟨_, rfl⟩
  | reportInt v => exact ⟨_, rfl⟩
  | timeout =>
    simp only [runAct, actTimeout]
    split <;> exact ⟨_, rfl⟩

/-- Of the next act of a plan, what holds of a poll and of the head of the plan. -/
theorem nextAct_fst_of {s : State} {P : HostAct → Prop} (hpoll : P .poll)
    (hplan : ∀ a rest, s.host.plan = a :: rest → P a) : P s.nextAct.1 := by
  cases hp : s.host.plan with
  | nil => simpa [nextAct_nil hp] using hpoll
  | cons a rest => simpa [nextAct_cons hp] using hplan a rest hp

/-- A host turn answers under the invariant, where its act keeps the duties of R85. -/
theorem State.Inv.hostTurn_answers {s : State} (hi : s.Inv) (ht : s.HostsTurn) (hk : s.KeepsDuties s.nextAct.1) :
    ∃ t, step s = .next t := by
  rw [step_host ht]
  refine runAct_answers (fun hv => ?_) ?_
  · simpa using hi.whole_of_valid (by simpa using hv)
  · simpa [State.KeepsDuties] using hk

/-- Settles O10: COMPLETE answers in its turn, and in the host's turn an act that keeps the duties does. -/
theorem safeStepAnswers : Obligations.SafeStepAnswers := by
  unfold Obligations.SafeStepAnswers
  rintro s ⟨hi, hk⟩
  by_cases ht : s.HostsTurn
  · exact hi.hostTurn_answers ht (nextAct_fst_of ⟨rfl, trivial⟩ hk)
  · obtain ⟨hp, hw⟩ := not_not.mp ht
    rw [step_complete hp hw]
    exact hi.complete_answers hp

/-! ### One step is one COMPLETE or one port word -/

/-- Settles O9: the hand-over that begins a host turn and the move of its act change the host's side only. -/
theorem eachStepIsOneOfTwo : Obligations.EachStepIsOneOfTwo := by
  unfold Obligations.EachStepIsOneOfTwo
  intro s t h
  obtain ⟨hn, hc⟩ | ⟨ht, w, k, he, -⟩ := step_next h
  · obtain ⟨hp, -⟩ := execComplete_next hc
    exact .inl ⟨hn, hp, hc⟩
  · rw [handOver_eq_withHost s] at he
    exact .inr ⟨ht, w, k, he⟩

/-- The hand-over reads neither the plan nor the countdown. -/
theorem handOver_withFetchWord (s : State) (nbits w : Nat) :
    (s.withFetchWord nbits w).handOver = s.handOver.withFetchWord nbits w := by
  show (if s.readValid then _ else _) = State.withFetchWord (if s.readValid then _ else _) nbits w
  cases s.readValid with
  | false => rfl
  | true =>
    have hr : (s.withFetchWord nbits w).readFrame = s.readFrame := rfl
    simp only [if_true, hr]
    cases s.readFrame <;> rfl

/-- Settles O8: the placed word is the next act, and the raised countdown leaves the turn to the host. -/
theorem fetchWordRuns : Obligations.FetchWordRuns := by
  unfold Obligations.FetchWordRuns
  intro s nbits w i hd
  obtain ⟨hlt, hge⟩ := numbersDecode nbits w
  have hw : w < 2 ^ 71 := by
    by_contra hn
    exact nomatch (hge (Nat.not_lt.mp hn)).1.symm.trans hd
  obtain rfl : decode (BitVec.ofNat 71 w) = i := Option.some.inj ((hlt hw).symm.trans hd)
  have ht : (s.withFetchWord nbits w).HostsTurn := fun h => nomatch h.2
  rw [step_planned ht rfl, handOver_withFetchWord]
  refine congrArg (exec _) ?_
  rw [handOver_eq_withHost s]
  have hp : s.handOver.host.plan = s.host.plan := s.handOver_plan
  have he : s.handOver.host.elapsed = s.host.elapsed := s.handOver_elapsed
  simp only [State.takeTurn, State.withFetchWord, State.withHost, ← hp, ← he, Nat.add_sub_cancel]

end Sys2Proof.Machine
end

section
/-! The Transmission Lifecycle turn by turn (60_exceptions.md R79 to R85): BEGIN, the START it owes, the hand-over, the reports and
the timeout. -/

namespace Sys2Proof.Machine

/-! ### BEGIN and the START it owes -/

/-- In IDLE the oldest START that is due is issued and accepted, and its hand-over is due. -/
theorem actStartDue_idle {s : State} {c : BitVec 5 × Ident} {later : List (BitVec 5 × Ident)} (hp : s.phase = .idle)
    (hs : s.host.startsDue = c :: later) :
    actStartDue s = .next ((s.withHost { s.host with
      startsDue := later, handOversDue := s.host.handOversDue + 1 }).capture c.1 c.2).enterBusy.drawLatency := by
  rw [actStartDue_some (startReady_some.mpr ⟨hp, hs⟩), decode_startWord]
  exact execStart_idle (by simpa using hp) c.1 c.2

/-- A BEGIN in Idle whose inputs fit: TX is Transmitting and the START is due behind those due before it. -/
theorem actBegin_idle {s : State} {df : Nat} {text : List Byte} {i : Ident} (htx : s.host.tx = .idle) (hd : df ≤ 31)
    (hi : identOfList? (padIdent text) = some i) :
    actBegin df text s = actStartDue (s.withHost { s.host with
      tx := .transmitting, startsDue := s.host.startsDue ++ [(BitVec.ofNat 5 df, i)], elapsed := 0 }) := by
  simp only [actBegin, htx, portInputs_fit hd hi]

/-- Settles O49: the BEGIN puts its START behind those due before it, and the turn issues the first of them in IDLE. -/
theorem beginInIdle : Obligations.BeginInIdle := by
  unfold Obligations.BeginInIdle
  intro s df text rest hp ht htx hd hl
  obtain ⟨i, hi, hget⟩ := padIdent_ident hl
  have hstep := (step_planned ht hp).trans (actBegin_idle (by simpa using htx) hd hi)
  cases hphase : s.phase with
  | idle =>
    obtain ⟨c, later, hc⟩ := List.exists_cons_of_ne_nil 
      (List.append_ne_nil_of_right_ne_nil s.host.startsDue (List.cons_ne_nil (BitVec.ofNat 5 df, i) []))
    rw [actStartDue_idle (by simpa using hphase) (by simpa using hc)] at hstep
    refine ⟨i, _, hget, hstep, rfl, rfl, rfl, rfl, by simp, by simp, rfl, fun _ => ?_, nofun⟩
    exact ⟨c, later, hc, rfl, rfl, rfl, rfl⟩
  | busy =>
    rw [actStartDue_none (startReady_none.mpr (.inl (by simpa using hphase)))] at hstep
    refine ⟨i, _, hget, hstep, rfl, rfl, rfl, rfl, by simp, by simp, by simpa using hphase, nofun, fun _ => ?_⟩
    exact ⟨captured_congr (by simp) (by simp), by simp, by simp, rfl⟩

/-- A turn with nothing planned, a poll, or a WAIT that waits is the turn of a START that is due. -/
theorem step_of_waiting {s : State} {after : List HostAct} (ht : s.HostsTurn)
    (hp : s.host.plan = [] ∧ after = [] ∨ s.host.plan = .poll :: after ∨
      ∃ rest, s.host.plan = .wait :: rest ∧ after = .wait :: rest ∧ s.valid = false) :
    step s = actStartDue (s.handOver.takeTurn after) := by
  obtain ⟨hp, rfl⟩ | hp | ⟨rest, hp, rfl, hv⟩ := hp
  · exact step_unplanned ht hp
  · exact step_planned ht hp
  · rw [step_planned ht hp, runAct, actWait, State.readValid, if_neg (by simp [hv])]
    rfl

/-- Settles O50: such a turn issues the oldest START in IDLE, and is a NOP where none is ready. -/
theorem dueStartIsIssued : Obligations.DueStartIsIssued := by
  unfold Obligations.DueStartIsIssued
  intro s after ht hp
  rw [step_of_waiting ht hp]
  refine ⟨fun c later hi hs => ?_, fun hn => actStartDue_none (startReady_none.mpr (by simpa using hn))⟩
  rw [actStartDue_idle (by simpa using hi) (by simpa using hs)]
  exact ⟨_, rfl, rfl, rfl, rfl, by simp, by simp, rfl, rfl, by simp, rfl, rfl⟩

/-- Settles O52: the act drives a NOP before it looks at its inputs. -/
theorem beginInTransmitting : Obligations.BeginInTransmitting := by
  unfold Obligations.BeginInTransmitting
  intro s df text rest hp ht htx
  have htx' : (s.handOver.takeTurn rest).host.tx = .transmitting := by simpa using htx
  rw [step_planned ht hp]
  simp only [runAct, actBegin, htx', actNoRequest_eq]

/-! ### Reports and the timeout -/

/-- A report moves TX as R82 and R83 say, and leaves the block. -/
theorem step_report {s : State} {r : Report} {a : HostAct} {rest : List HostAct} (ht : s.HostsTurn)
    (hp : s.host.plan = a :: rest)
    (ha : runAct a (s.handOver.takeTurn rest) = actReport r (s.handOver.takeTurn rest)) :
    ∃ t, step s = .next t ∧ t.host.tx = s.host.tx.after r ∧ SameBlock s t := by
  refine ⟨_, ((step_planned ht hp).trans ha), ?_, sameBlock_hostTurn s rest _⟩
  simp

/-- Settles O53: `Done` sets Idle, and the integer channel is the tagged one but for the sentinel. -/
theorem reportsMoveTx : Obligations.ReportsMoveTx := by
  unfold Obligations.ReportsMoveTx
  intro s rest ht
  refine ⟨fun hp => step_report ht hp rfl, fun v hp => step_report ht hp rfl, fun v hp => ?_⟩
  obtain ⟨t, hs, htx, hb⟩ := step_report ht hp rfl
  refine ⟨t, hs, hb, htx.trans ?_⟩
  rw [State.takeTurn_cfg, State.handOver_cfg, reportOfInt]
  split <;> rfl

/-- Settles O58: the act sets Idle exactly where the timeout is enabled, the turn itself counted. -/
theorem timeoutOnlyWhereSet : Obligations.TimeoutOnlyWhereSet := by
  unfold Obligations.TimeoutOnlyWhereSet
  intro s rest hp ht
  have henabled : (s.handOver.takeTurn rest).timeoutEnabled = true ↔
      s.host.tx = .transmitting ∧ ∃ d, s.cfg.txTimeout = some d ∧ d ≤ s.host.elapsed + 1 := by
    simp only [State.timeoutEnabled, State.takeTurn_cfg, State.handOver_cfg, State.takeTurn_host, State.handOver_tx,
      State.handOver_elapsed]
    cases s.cfg.txTimeout <;> simp
  rw [step_planned ht hp, runAct, actTimeout]
  split
  · rename_i he
    refine ⟨_, rfl, sameBlock_hostTurn s rest _, fun _ => rfl, ?_⟩
    obtain ⟨-, d, hd, hle⟩ := henabled.mp he
    rintro (hn | ⟨d', hd', hlt⟩)
    · exact nomatch hn.symm.trans hd
    · obtain rfl : d' = d := Option.some.inj (hd'.symm.trans hd)
      omega
  · rename_i he
    exact ⟨_, rfl, sameBlock_hostTurn s rest _, fun h => absurd (henabled.mpr h) he, fun _ => by simp⟩

/-! ### What one step does to the host's side -/

/-- No operation touches the host's side. -/
theorem exec_host {i : Instr} {s t : State} (h : exec i s = .next t) : t.host = s.host := by
  obtain ⟨-, rfl⟩ | ⟨_, _, -, -, rfl⟩ | ⟨-, -, _, _, _, -, -, rfl⟩ | ⟨-, rfl⟩ | ⟨-, -, _, rfl⟩ := exec_next h <;> rfl

/-- What one step does to the host's side: nothing in COMPLETE's turn, and in the host's turn the hand-over and then a move of the
next act, which drives the word w. -/
theorem step_host_next {s t : State} (h : step s = .next t) :
    (¬ s.HostsTurn ∧ t.host = s.host) ∨
    (s.HostsTurn ∧ ∃ w, exec (decode w) ((s.handOver.takeTurn s.nextAct.2).withHost t.host) = .next t ∧
      HostMove s.nextAct.1 (s.handOver.takeTurn s.nextAct.2) w t.host) := by
  obtain ⟨hn, hc⟩ | ⟨ht, w, k, he, hk⟩ := step_next h
  · exact .inl ⟨hn, exec_host hc⟩
  · obtain rfl : t.host = k := exec_host he
    exact .inr ⟨ht, w, he, hk⟩

/-- A next act that is no poll is the head of the plan. -/
theorem plan_of_nextAct {s : State} {a : HostAct} (h : s.nextAct.1 = a) (ha : a ≠ .poll) :
    s.host.plan = a :: s.nextAct.2 := by
  cases hp : s.host.plan with
  | nil => exact absurd (h.symm.trans (congrArg Prod.fst (nextAct_nil hp))) ha
  | cons b rest =>
    rw [nextAct_cons hp] at h ⊢
    exact congrArg (· :: rest) h

/-! ### The account of the hand-overs -/

/-- Under the invariant, where VALID = 1, FRAME has a value, and it is handed over once for each hand-over due. -/
theorem State.Inv.handOver_of_valid {s : State} (hi : s.Inv) (hv : s.valid = true) : ∃ f, s.frameOut = some f ∧
    s.handOver = s.withHost { s.host with
      handed := s.host.handed ++ List.replicate s.host.handOversDue f, handOversDue := 0 } := by
  obtain ⟨f, hf⟩ := hi.whole_of_valid hv
  exact ⟨f, frameOut_whole hf, Machine.handOver_valid hv (readFrame_whole hv hf)⟩

/-- What a read of `frame` gives is FRAME's value. -/
theorem frameOut_of_readFrame {s : State} {f : Frame} (hv : s.valid = true) (h : s.readFrame = .ok f) :
    s.frameOut = some f := by
  rw [State.readFrame, readPort_valid hv] at h
  exact (Memory.memRead_spec h).2

/-- Over every step, frames handed over, hand-overs due and STARTs due grow together by one where a BEGIN is accepted. -/
theorem step_account {s t : State} (h : step s = .next t) :
    t.host.handed.length + t.host.handOversDue + t.host.startsDue.length =
      s.host.handed.length + s.host.handOversDue + s.host.startsDue.length +
        (if s.host.tx = .idle ∧ t.host.tx = .transmitting then 1 else 0) := by
  obtain ⟨-, hh⟩ | ⟨-, w, -, hk⟩ := step_host_next h
  · rw [hh]
    cases s.host.tx <;> simp
  · have hhanded := congrArg List.length hk.handed
    have howed := hk.owed
    have haccount := handOver_account s
    simp only [State.takeTurn_host, State.handOver_tx, State.handOver_startsDue] at hhanded howed
    omega

/-- TX leaves Idle only in the turn of a planned BEGIN. -/
theorem step_accepts {s t : State} (h : step s = .next t) (hs : s.host.tx = .idle) (ht : t.host.tx = .transmitting) :
    s.HostsTurn ∧ ∃ df text rest, s.host.plan = .beginTx df text :: rest := by
  obtain ⟨-, hh⟩ | ⟨hturn, w, -, hk⟩ := step_host_next h
  · rw [hh, hs] at ht
    exact nomatch ht
  · obtain ⟨df, text, ha⟩ := hk.accepts (by simpa using hs) ht
    exact ⟨hturn, df, text, _, plan_of_nextAct ha nofun⟩

/-- After a hand-over no hand-over is due but that of a START issued in IDLE in the same turn. -/
theorem HostMove.due_of_none {a : HostAct} {s t : State} {w : PortWord} (hk : HostMove a s w t.host)
    (he : exec (decode w) (s.withHost t.host) = .next t) (hn : s.host.handOversDue = 0) :
    t.host.handOversDue = 0 ∨ (t.host.handOversDue = 1 ∧ s.phase = .idle ∧ t.phase = .busy) := by
  obtain hd | ⟨hd, hp, d, i, rfl⟩ := hk.due
  · exact .inl (hd.trans hn)
  · rw [decode_startWord, execStart_idle (by simpa using hp)] at he
    exact .inr ⟨by rw [hd, hn], hp, congrArg State.phase (Host.Outcome.next.inj he).symm⟩

/-- A step that changes the frames handed over is a host turn with VALID = 1 that makes every hand-over that was due. -/
theorem step_handed_changes {s t : State} (h : step s = .next t) (hne : t.host.handed ≠ s.host.handed) :
    s.HostsTurn ∧ 0 < s.host.handOversDue ∧ s.valid = true ∧
      (∃ f, s.frameOut = some f ∧ t.host.handed = s.host.handed ++ List.replicate s.host.handOversDue f) ∧
      (t.host.handOversDue = 0 ∨ (t.host.handOversDue = 1 ∧ s.phase = .idle ∧ t.phase = .busy)) := by
  obtain ⟨-, hh⟩ | ⟨hturn, w, he, hk⟩ := step_host_next h
  · exact absurd (congrArg _ hh) hne
  · have hhanded : t.host.handed = s.handOver.host.handed := hk.handed
    obtain ⟨hs, -⟩ | ⟨hv, f, hf, hs⟩ := handOver_cases s
    · exact absurd (by rw [hhanded, hs]) hne
    · have hto : t.host.handed = s.host.handed ++ List.replicate s.host.handOversDue f := by rw [hhanded, hs]; rfl
      have hpos : 0 < s.host.handOversDue := by
        refine Nat.pos_of_ne_zero fun hz => hne ?_
        rw [hto, hz, List.replicate_zero, List.append_nil]
      refine ⟨hturn, hpos, hv, ⟨f, frameOut_of_readFrame hv hf, hto⟩, ?_⟩
      simpa using hk.due_of_none he (by simp [hs])

/-- Under the invariant, with VALID = 1, every step that answers makes the hand-overs that are due. -/
theorem State.Inv.step_hands_over {s t : State} (hi : s.Inv) (hv : s.valid = true) (h : step s = .next t) :
    ∃ f, s.frameOut = some f ∧ t.host.handed = s.host.handed ++ List.replicate s.host.handOversDue f := by
  obtain ⟨hn, -⟩ | ⟨-, w, -, hk⟩ := step_host_next h
  · exact absurd (hi.hostsTurn hv) hn
  · obtain ⟨f, hf, hs⟩ := hi.handOver_of_valid hv
    refine ⟨f, hf, hk.handed.trans ?_⟩
    rw [hs]
    rfl

/-- Settles O54: each part is one of the lemmas above; with no START due, the turn of a poll is a NOP after the hand-over. -/
theorem handOverOnce : Obligations.HandOverOnce := by
  unfold Obligations.HandOverOnce
  refine ⟨fun s hi => ⟨hi.handOver_of_valid, fun h => h.elim handOver_not_due handOver_not_valid⟩, fun s t => step_account,
    fun s t => step_accepts, fun s t => step_handed_changes, fun s t hi hv => hi.step_hands_over hv, ?_⟩
  intro s rest hi hv hnone hp
  obtain ⟨f, hf, hs⟩ := hi.handOver_of_valid hv
  obtain ⟨-, hnop⟩ := dueStartIsIssued s rest (hi.hostsTurn hv) (hp.imp_right .inl)
  exact ⟨f, _, hf, hnop (.inr hnone), by simp [hs], by simp [hs], rfl, by simp [SameBlock]⟩

/-! ### The hang -/

/-- Transmitting, with no timeout set and no Done planned: nothing is there that could set TX to Idle. -/
def State.Hangs (s : State) : Prop :=
  s.host.tx = .transmitting ∧ s.cfg.txTimeout = none ∧
    ∀ a ∈ s.host.plan, a ≠ .report .done ∧ a ≠ .reportInt s.cfg.doneSentinel

/-- What a host turn leaves of the plan was planned before it. -/
theorem HostMove.mem_plan {s : State} {w : PortWord} {k : HostSide}
    (hk : HostMove s.nextAct.1 (s.handOver.takeTurn s.nextAct.2) w k) {a : HostAct} (ha : a ∈ k.plan) : a ∈ s.host.plan := by
  have hrest : ∀ b ∈ s.nextAct.2, b ∈ s.host.plan := by
    cases hp : s.host.plan with
    | nil => simp [nextAct_nil hp]
    | cons b rest => simpa [nextAct_cons hp] using fun c => List.mem_cons_of_mem b
  obtain hp | ⟨hp, -, hw, -⟩ := hk.plan
  · exact hrest a (by rwa [hp] at ha)
  · rw [hp] at ha
    obtain rfl | ha := List.mem_cons.mp ha
    · rw [plan_of_nextAct hw nofun, hw]
      exact List.mem_cons_self
    · exact hrest a ha

/-- Every step keeps the hang. -/
theorem State.Hangs.of_step {s t : State} (hs : s.Hangs) (h : step s = .next t) : t.Hangs := by
  obtain ⟨htx, hto, hplan⟩ := hs
  have hcfg := constantsNeverWritten.2 s t h
  rw [State.Hangs, hcfg]
  obtain ⟨-, hh⟩ | ⟨-, w, -, hk⟩ := step_host_next h
  · rw [hh]
    exact ⟨htx, hto, hplan⟩
  · refine ⟨?_, hto, fun a ha => hplan a (hk.mem_plan ha)⟩
    cases htt : t.host.tx with
    | transmitting => rfl
    | idle =>
      have hdone : s.nextAct.1 ≠ .report .done ∧ s.nextAct.1 ≠ .reportInt s.cfg.doneSentinel :=
        nextAct_fst_of ⟨nofun, nofun⟩ fun a rest hp => hplan a (by simp [hp])
      obtain hi | hd | hd | ⟨-, he⟩ := hk.toIdle htt
      · rw [State.takeTurn_host, State.handOver_tx, htx] at hi
        exact nomatch hi
      · exact absurd hd hdone.1
      · exact absurd (by simpa using hd) hdone.2
      · simp [State.timeoutEnabled, hto] at he

/-- Settles O57: every step of the run keeps the hang. -/
theorem transmissionHangs : Obligations.TransmissionHangs := by
  unfold Obligations.TransmissionHangs
  intro k s t htx hto hplan h
  suffices t.Hangs from this.1
  have hs : s.Hangs := ⟨htx, hto, hplan⟩
  clear htx hto hplan
  induction k generalizing s with
  | zero => cases h; exact hs
  | succ k ih =>
    obtain ⟨u, hu, hrun⟩ := run_succ_inv h
    exact ih u hrun (hs.of_step hu)

end Sys2Proof.Machine
end

section
/-! Runs that serve the accepted BEGINs (60_exceptions.md R80, R85, R93; 70_reset_and_hazards.md R94): an encode under way completes
while the host waits, and the host then hands over what is due. -/

namespace Sys2Proof.Machine

/-- A run of `k + l` steps is a run of `l` steps from where the run of `k` steps ends. -/
theorem run_add {k : Nat} {s u : State} (l : Nat) (h : Host.Core.run Sys2Proof.core k s = .next u) :
    Host.Core.run Sys2Proof.core (k + l) s = Host.Core.run Sys2Proof.core l u := by
  induction k generalizing s with
  | zero => cases h; rw [Nat.zero_add]
  | succ k ih =>
    obtain ⟨v, hv, hrun⟩ := run_succ_inv h
    rw [Nat.add_right_comm, run_succ_next _ hv, ih hrun]

/-! ### A host that waits -/

/-- An act that keeps waiting keeps the duties of R85 in every state. -/
theorem HostAct.KeepsWaiting.keepsDuties {a : HostAct} (h : a.KeepsWaiting) (s : State) : s.KeepsDuties a := by
  obtain ⟨hfit, ha⟩ := h
  refine ⟨hfit, ?_⟩
  cases a with
  | read sel => simp [ha]
  | readByte b => exact ha.elim
  | _ => trivial

/-- The plan of a host that waits is empty, begins with a WAIT, or begins with another act that keeps waiting. -/
theorem planWaits_cases {plan : List HostAct} (h : PlanWaits plan) :
    (plan = [] ∨ ∃ rest, plan = .wait :: rest) ∨ ∃ a rest, plan = a :: rest ∧ a.KeepsWaiting ∧ PlanWaits rest := by
  obtain ⟨before, after, rfl, hb, ha⟩ := h
  cases before with
  | nil => exact .inl ha
  | cons a before =>
    have hrest : ∀ b ∈ before, b.KeepsWaiting := fun b h => hb b (List.mem_cons_of_mem a h)
    exact .inr ⟨a, _, rfl, hb a List.mem_cons_self, before, after, rfl, hrest, ha⟩

theorem planWaits_nil : PlanWaits [] := ⟨[], [], rfl, nofun, .inl rfl⟩

theorem PlanWaits.cons {a : HostAct} {plan : List HostAct} (ha : a.KeepsWaiting) (h : PlanWaits plan) :
    PlanWaits (a :: plan) := by
  obtain ⟨before, after, rfl, hb, hafter⟩ := h
  exact ⟨a :: before, after, rfl, List.forall_mem_cons.mpr ⟨ha, hb⟩, hafter⟩

/-- The next act of a host that waits keeps waiting. -/
theorem PlanWaits.nextAct {s : State} (h : PlanWaits s.host.plan) : s.nextAct.1.KeepsWaiting := by
  refine nextAct_fst_of ⟨rfl, trivial⟩ fun a rest hp => ?_
  rw [hp] at h
  obtain (h | ⟨_, h⟩) | ⟨_, _, h, ha, -⟩ := planWaits_cases h <;> cases h
  · exact ⟨rfl, trivial⟩
  · exact ha

/-! ### An encode under way -/

/-- In BUSY no START is issued. -/
theorem actStartDue_busy {s : State} (hb : s.phase = .busy) : actStartDue s = .next s :=
  actStartDue_none (startReady_none.mpr (.inl hb))

/-- In BUSY an act that keeps waiting leaves the block: it drives no RESET, and a START is dropped (R93). -/
theorem runAct_busy {a : HostAct} {s t : State} (hb : s.phase = .busy) (ha : a.KeepsWaiting) (h : runAct a s = .next t) :
    ∃ k, t = s.withHost k := by
  cases a with
  | drive w =>
    obtain ⟨hr, -⟩ | ⟨_, _, -, hi, -⟩ | ⟨-, -, he⟩ := exec_decode_cases w s
    · exact nomatch ha.2.symm.trans ((decode_eq_reset_iff w).mp hr)
    · exact nomatch hb.symm.trans hi
    · cases h.symm.trans he
      exact ⟨s.host, rfl⟩
  | start df id =>
    simp only [runAct, actStart] at h
    split at h
    · exact nomatch h
    · rw [actDrive, decode_startWord, execStart_busy hb] at h
      cases h
      exact ⟨s.host, rfl⟩
  | wait =>
    simp only [runAct, actWait] at h
    split at h
    · cases h
      exact ⟨s.host, rfl⟩
    · rw [actStartDue_busy (by simpa using hb)] at h
      cases h
      exact ⟨_, rfl⟩
  | read sel =>
    obtain ⟨x, rfl⟩ := runAct_read_next (.inl ⟨sel, rfl⟩) h
    exact ⟨_, rfl⟩
  | readByte b => exact ha.2.elim
  | poll =>
    cases (actStartDue_busy hb).symm.trans h
    exact ⟨s.host, rfl⟩
  | beginTx df text =>
    simp only [runAct, actBegin] at h
    split at h
    · cases h
      exact ⟨s.host, rfl⟩
    · split at h
      · exact nomatch h
      · rw [actStartDue_busy (by simpa using hb)] at h
        cases h
        exact ⟨_, rfl⟩
  | report r => cases h; exact ⟨_, rfl⟩
  | reportInt v => cases h; exact ⟨_, rfl⟩
  | timeout =>
    simp only [runAct, actTimeout] at h
    split at h <;> cases h <;> exact ⟨_, rfl⟩

/-- What the turns of a waiting host in BUSY do to its side: it still waits, nothing is handed over and no hand-over becomes due; with
nothing planned, no START becomes due. -/
structure HostSide.WaitsTo (h k : HostSide) : Prop where
  handed : k.handed = h.handed
  due : k.handOversDue = h.handOversDue
  plan : PlanWaits k.plan
  unplanned : h.plan = [] → k.plan = [] ∧ k.startsDue = h.startsDue

theorem HostSide.WaitsTo.trans {h k l : HostSide} (hk : h.WaitsTo k) (kl : k.WaitsTo l) : h.WaitsTo l where
  handed := kl.handed.trans hk.handed
  due := kl.due.trans hk.due
  plan := kl.plan
  unplanned := fun hp => by
    obtain ⟨hkp, hks⟩ := hk.unplanned hp
    obtain ⟨hlp, hls⟩ := kl.unplanned hkp
    exact ⟨hlp, hls.trans hks⟩

/-- In BUSY the turn of a host that waits answers, takes one turn off the countdown and leaves the block. -/
theorem State.Inv.busy_turn {s : State} (hi : s.Inv) (hb : s.phase = .busy) (hw : s.wait ≠ 0)
    (hp : PlanWaits s.host.plan) : ∃ k, step s = .next ((s.takeTurn []).withHost k) ∧ s.host.WaitsTo k := by
  obtain ⟨hv, -⟩ := hi.busy hb
  have ht : s.HostsTurn := fun h => hw h.2
  have hs : s.handOver = s := handOver_not_valid hv
  obtain hpl | ⟨a, rest, hpl, ha, hrest⟩ := planWaits_cases hp
  · have hwait : s.host.plan = [] ∧ s.host.plan = [] ∨ s.host.plan = .poll :: s.host.plan ∨
        ∃ rest, s.host.plan = .wait :: rest ∧ s.host.plan = .wait :: rest ∧ s.valid = false := by
      obtain h | ⟨rest, h⟩ := hpl
      · exact .inl ⟨h, h⟩
      · exact .inr (.inr ⟨rest, h, h, hv⟩)
    obtain ⟨-, hnop⟩ := dueStartIsIssued s s.host.plan ht hwait
    rw [hs] at hnop
    exact ⟨_, hnop (.inl hb), rfl, rfl, hp, fun h => ⟨h, rfl⟩⟩
  · obtain ⟨t, h⟩ := hi.hostTurn_answers ht (hp.nextAct.keepsDuties s)
    obtain ⟨hn, -⟩ | ⟨-, w, -, hk⟩ := step_host_next h
    · exact absurd ht hn
    rw [step_planned ht hpl] at h
    rw [hs] at h hk
    rw [nextAct_cons hpl] at hk
    obtain ⟨k, rfl⟩ := runAct_busy (by simpa using hb) ha h
    refine ⟨k, by rw [step_planned ht hpl, hs, h]; rfl, hk.handed, ?_, ?_, fun hnil => ?_⟩
    · obtain hd | ⟨-, hidle, -⟩ := hk.due
      · exact hd
      · exact nomatch hb.symm.trans hidle
    · obtain h | ⟨h, -⟩ := hk.plan
      · exact h ▸ hrest
      · exact h ▸ hrest.cons ha
    · exact nomatch hnil.symm.trans hpl

/-- The state t stands right after a COMPLETE, under the constants of s, of the inputs c. -/
structure CompletedFrom (s : State) (c : BitVec 5 × Ident) (t : State) : Prop where
  inv : t.Inv
  phase : t.phase = .idle
  valid : t.valid = true
  cfg : t.cfg = s.cfg
  frame : t.fb = frameCells (encodeFrame s.cfg c.1 c.2)

/-- With a host that waits, an encode under way completes when its countdown has run out (R94). -/
theorem State.Inv.run_busy {s : State} {c : BitVec 5 × Ident} (hi : s.Inv) (hb : s.phase = .busy)
    (hc : s.captured? = some c) (hp : PlanWaits s.host.plan) :
    ∃ t, Host.Core.run Sys2Proof.core (s.wait + 1) s = .next t ∧ CompletedFrom s c t ∧ s.host.WaitsTo t.host := by
  obtain ⟨n, hn⟩ : ∃ n, s.wait = n := ⟨_, rfl⟩
  induction n generalizing s with
  | zero =>
    obtain ⟨m, hm, he⟩ := execComplete_busy hb hc
    rw [Memory.commit_eq hi.memory] at hm
    cases hm
    have hstep := (step_complete hb hn).trans he
    rw [hn]
    refine ⟨_, run_succ_next 0 hstep, ?_, rfl, rfl, hp, fun h => ⟨h, rfl⟩⟩
    exact ⟨stepKeepsInvariant s _ hi hstep, rfl, rfl, rfl, rfl⟩
  | succ n ih =>
    obtain ⟨k, hstep, hk⟩ := hi.busy_turn hb (by omega) hp
    have hwait : ((s.takeTurn []).withHost k).wait = n := by simp [hn]
    obtain ⟨t, hrun, ht, hkt⟩ := ih (s := (s.takeTurn []).withHost k) (stepKeepsInvariant s _ hi hstep) hb hc hk.plan hwait
    refine ⟨t, ?_, ⟨ht.inv, ht.phase, ht.valid, ht.cfg, ht.frame⟩, hk.trans hkt⟩
    rw [hn, run_succ_next _ hstep, ← hrun, hwait]

/-- Right after a COMPLETE the hand-over gives the encoding of its inputs for each hand-over due, and none stays due. -/
theorem CompletedFrom.handOver {s t : State} {c : BitVec 5 × Ident} (h : CompletedFrom s c t) :
    t.handOver.host.handed = t.host.handed ++ List.replicate t.host.handOversDue (encodeFrame s.cfg c.1 c.2) := by
  rw [handOver_valid h.valid (readFrame_whole h.valid h.frame)]
  rfl

/-- No hand-over stays due after one that can be made. -/
theorem State.Inv.handOver_leaves_none {s : State} (hi : s.Inv) (h : s.host.handOversDue = 0 ∨ s.valid = true) :
    s.handOver.host.handOversDue = 0 := by
  obtain h | hv := h
  · rw [handOver_not_due h, h]
  · obtain ⟨f, -, hs⟩ := hi.handOver_of_valid hv
    rw [hs]
    rfl

/-- Settles O55: the turn of the BEGIN issues its START, the encode completes, and the next turn hands the frame over. -/
theorem beginHandsOverItsFrame : Obligations.BeginHandsOverItsFrame := by
  unfold Obligations.BeginHandsOverItsFrame
  intro s df text rest hi hp htx hidle hnone hdue hd hl hwaits
  have ht : s.HostsTurn := fun h => nomatch hidle.symm.trans h.1
  obtain ⟨id, u, hget, hu, -, -, hhanded, hplan, -, hcfg, hbusy, hissued, -⟩ :=
    beginInIdle s df text rest hp ht htx hd hl
  obtain ⟨c, later, hc, hcap, -, -, hudue⟩ := hissued hidle
  rw [hnone] at hc
  cases hc
  rw [hi.handOver_leaves_none hdue] at hudue
  have hui := stepKeepsInvariant s u hi hu
  obtain ⟨v, hrun, hv, huv⟩ := hui.run_busy hbusy hcap (hplan ▸ hwaits)
  obtain ⟨t, hstep⟩ := hv.inv.hostTurn_answers (hv.inv.hostsTurn hv.valid) (huv.plan.nextAct.keepsDuties v)
  obtain ⟨f, hf, hth⟩ := hv.inv.step_hands_over hv.valid hstep
  obtain rfl := Option.some.inj ((frameOut_whole hv.frame).symm.trans hf)
  refine ⟨id, 1 + (u.wait + 1) + 1, t, hget, ?_, ?_⟩
  · rw [Nat.add_assoc, run_add _ (run_succ_next 0 hu), run_add 1 hrun, run_succ_next 0 hstep, run_zero]
  · rw [hth, huv.handed, huv.due, hhanded, hudue, hcfg]
    rfl

/-! ### Every accepted BEGIN -/

/-- In IDLE with nothing planned, the oldest START that is due is issued and completes. -/
theorem State.Inv.run_oldest_start {s : State} {c : BitVec 5 × Ident} {later : List (BitVec 5 × Ident)} (hi : s.Inv)
    (hp : s.host.plan = []) (hidle : s.phase = .idle) (hs : s.host.startsDue = c :: later) :
    ∃ k t, Host.Core.run Sys2Proof.core k s = .next t ∧ CompletedFrom s c t ∧ t.host.plan = [] ∧
      t.host.startsDue = later ∧ t.host.handed = s.handOver.host.handed ∧
      t.host.handOversDue = s.handOver.host.handOversDue + 1 := by
  have ht : s.HostsTurn := fun h => nomatch hidle.symm.trans h.1
  obtain ⟨hissue, -⟩ := dueStartIsIssued s [] ht (.inl ⟨hp, rfl⟩)
  obtain ⟨u, hu, hcap, hbusy, -, -, hcfg, hlater, hdue, -, hhanded, hplan⟩ := hissue c later hidle hs
  obtain ⟨t, hrun, ⟨hinv, hphase, hvalid, htcfg, hframe⟩, hut⟩ :=
    (stepKeepsInvariant s u hi hu).run_busy hbusy hcap (hplan ▸ planWaits_nil)
  obtain ⟨htplan, htlater⟩ := hut.unplanned hplan
  rw [hcfg] at htcfg hframe
  exact ⟨u.wait + 1 + 1, t, by rw [run_succ_next _ hu, hrun], ⟨hinv, hphase, hvalid, htcfg, hframe⟩, htplan,
    htlater.trans hlater, hut.handed.trans hhanded, hut.due.trans hdue⟩

/-- In IDLE with nothing planned and no hand-over that must wait, a run hands over what is due and then the encodings of the STARTs
due, in their order. -/
theorem State.Inv.run_serves {s : State} (hi : s.Inv) (hp : s.host.plan = []) (hidle : s.phase = .idle)
    (hdue : s.host.handOversDue = 0 ∨ s.valid = true) :
    ∃ k t, Host.Core.run Sys2Proof.core k s = .next t ∧ t.host.startsDue = [] ∧ t.host.handOversDue = 0 ∧
      t.host.handed = s.handOver.host.handed ++ s.host.startsDue.map fun c => encodeFrame s.cfg c.1 c.2 := by
  obtain ⟨l, hl⟩ : ∃ l, s.host.startsDue = l := ⟨_, rfl⟩
  have hnone := hi.handOver_leaves_none hdue
  induction l generalizing s with
  | nil =>
    have ht : s.HostsTurn := fun h => nomatch hidle.symm.trans h.1
    obtain ⟨-, hnop⟩ := dueStartIsIssued s [] ht (.inl ⟨hp, rfl⟩)
    refine ⟨1, s.handOver.takeTurn [], by rw [run_succ_next 0 (hnop (.inr hl)), run_zero], ?_⟩
    simp [hl, hnone]
  | cons c later ih =>
    obtain ⟨k, u, hk, hu, huplan, hulater, huhanded, hudue⟩ := hi.run_oldest_start hp hidle hl
    obtain ⟨m, t, hm, hstarts, htdue, hhanded⟩ :=
      ih hu.inv huplan hu.phase (.inr hu.valid) hulater (hu.inv.handOver_leaves_none (.inr hu.valid))
    refine ⟨k + m, t, (run_add m hk).trans hm, hstarts, htdue, ?_⟩
    rw [hhanded, hu.handOver, hulater, huhanded, hudue, hnone, hu.cfg, hl]
    simp

/-- The same, counted as well: what is handed over grows by the hand-overs and the STARTs that were due. -/
theorem State.Inv.run_serves_counted {s : State} (hi : s.Inv) (hp : s.host.plan = []) (hidle : s.phase = .idle)
    (hdue : s.host.handOversDue = 0 ∨ s.valid = true) :
    ∃ k t, Host.Core.run Sys2Proof.core k s = .next t ∧ t.host.startsDue = [] ∧ t.host.handOversDue = 0 ∧
      t.host.handed.length = s.host.handed.length + s.host.handOversDue + s.host.startsDue.length ∧
      t.host.handed = s.handOver.host.handed ++ s.host.startsDue.map fun c => encodeFrame s.cfg c.1 c.2 := by
  obtain ⟨k, t, hrun, hstarts, hnone, hhanded⟩ := hi.run_serves hp hidle hdue
  have haccount := handOver_account s
  rw [hi.handOver_leaves_none hdue] at haccount
  refine ⟨k, t, hrun, hstarts, hnone, ?_, hhanded⟩
  rw [hhanded, List.length_append, List.length_map, ← haccount, Nat.add_zero]

/-- The wait of R85 after a RESET: with nothing planned and no START due in IDLE with VALID = 0, nothing changes but the turn count. -/
theorem run_waits {k : Nat} {s t : State} (hp : s.host.plan = []) (hidle : s.phase = .idle) (hv : s.valid = false)
    (hs : s.host.startsDue = []) (h : Host.Core.run Sys2Proof.core k s = .next t) :
    t.host.handed = s.host.handed ∧ t.host.handOversDue = s.host.handOversDue ∧ SameBlock s t := by
  induction k generalizing s with
  | zero => cases h; exact ⟨rfl, rfl, rfl, rfl, rfl, rfl, rfl, rfl⟩
  | succ k ih =>
    have ht : s.HostsTurn := fun h => nomatch hidle.symm.trans h.1
    obtain ⟨-, hnop⟩ := dueStartIsIssued s [] ht (.inl ⟨hp, rfl⟩)
    have hstep := hnop (.inr hs)
    rw [handOver_not_valid hv] at hstep
    rw [run_succ_next k hstep] at h
    exact ih (s := s.takeTurn []) rfl hidle hv hs h

/-- Settles O56: an encode under way, or the first START after a RESET, leads to a state from which all is served. -/
theorem acceptedBeginsAreServed : Obligations.AcceptedBeginsAreServed := by
  unfold Obligations.AcceptedBeginsAreServed
  refine ⟨fun s hi hp h => ?_, fun k s t => run_waits⟩
  cases hphase : s.phase with
  | busy =>
    obtain ⟨-, df, id, hc⟩ := hi.busy hphase
    obtain ⟨u, hu, hdone, hwaits⟩ := hi.run_busy hphase hc (hp ▸ planWaits_nil)
    obtain ⟨huplan, hustarts⟩ := hwaits.unplanned hp
    obtain ⟨m, t, hm, hstarts, hnone, hlen, -⟩ := hdone.inv.run_serves_counted huplan hdone.phase (.inr hdone.valid)
    rw [hwaits.handed, hwaits.due, hustarts] at hlen
    exact ⟨s.wait + 1 + m, t, (run_add m hu).trans hm, hstarts, hnone, hlen, nofun⟩
  | idle =>
    by_cases hdue : s.host.handOversDue = 0 ∨ s.valid = true
    · obtain ⟨k, t, hrun, hstarts, hnone, hlen, hhanded⟩ := hi.run_serves_counted hp hphase hdue
      exact ⟨k, t, hrun, hstarts, hnone, hlen, fun _ hz => by rw [hhanded, handOver_not_due hz]⟩
    · obtain ⟨hdue0, hv⟩ := not_or.mp hdue
      obtain ⟨c, later, hc⟩ := List.exists_cons_of_ne_nil (l := s.host.startsDue) (by simpa [hphase, hv, hdue0] using h)
      obtain ⟨k, u, hk, hu, huplan, hulater, huhanded, hudue⟩ := hi.run_oldest_start hp hphase hc
      obtain ⟨m, t, hm, hstarts, hnone, hlen, -⟩ := hu.inv.run_serves_counted huplan hu.phase (.inr hu.valid)
      rw [handOver_not_valid (eq_false_of_ne_true hv)] at huhanded hudue
      refine ⟨k + m, t, (run_add m hk).trans hm, hstarts, hnone, ?_, fun _ hz => absurd hz hdue0⟩
      rw [hlen, hulater, huhanded, hudue, hc, List.length_cons]
      omega

end Sys2Proof.Machine
end

section
/-! The display string (60_exceptions.md R86): the six nibbles of CRC_OUT as digits. -/

namespace Sys2Proof.Machine

/-- The six digits of three bytes: of each byte the high nibble and then the low one. -/
theorem hexDigits_append (h : HexCase) (b11 b12 b13 : Byte) :
    hexDigits h (b11 ++ b12 ++ b13) = [b11.extractLsb' 4 4, b11.extractLsb' 0 4, b12.extractLsb' 4 4,
      b12.extractLsb' 0 4, b13.extractLsb' 4 4, b13.extractLsb' 0 4].map (hexDigit h) := by
  have low : ∀ k, k + 4 ≤ 8 → (b11 ++ b12 ++ b13).extractLsb' k 4 = b13.extractLsb' k 4 :=
    fun k hk => BitVec.extractLsb'_append_eq_of_add_le hk
  have middle : ∀ k, 8 ≤ k → k - 8 + 4 ≤ 8 → (b11 ++ b12 ++ b13).extractLsb' k 4 = b12.extractLsb' (k - 8) 4 :=
    fun k hk hk' => (BitVec.extractLsb'_append_eq_of_le hk).trans (BitVec.extractLsb'_append_eq_of_add_le hk')
  have high : ∀ k, 16 ≤ k → (b11 ++ b12 ++ b13).extractLsb' k 4 = b11.extractLsb' (k - 8 - 8) 4 :=
    fun k hk => (BitVec.extractLsb'_append_eq_of_le (by omega)).trans (BitVec.extractLsb'_append_eq_of_le (by omega))
  simp only [hexDigits, List.map_cons, List.map_nil, high 20 (by omega), high 16 (by omega),
    middle 12 (by omega) (by omega), middle 8 (by omega) (by omega), low 4 (by omega), low 0 (by omega)]

/-- Settles O46: CRC_OUT is the three bytes, and the digits are looked up nibble by nibble. -/
theorem displayDigits : Obligations.DisplayDigits := by
  unfold Obligations.DisplayDigits
  refine ⟨fun s b11 b12 b13 h11 h12 h13 => ?_, by decide, by decide⟩
  obtain ⟨hcrc, -⟩ := crcOutIsAView s
  rw [State.display, hcrc b11 b12 b13 h11 h12 h13, Option.map_some, hexDigits_append]

end Sys2Proof.Machine
end

section
/-! RESET (70_reset_and_hazards.md R87), and the completion of an accepted encode (R94). -/

namespace Sys2Proof.Machine

/-- RESET is idempotent: it writes the same values into the same fields again. -/
theorem exec_reset_again {s t : State} (h : exec .reset s = .next t) : exec .reset t = .next t := by
  cases h
  rfl

/-- Settles O11: the frame of RESET field by field; what it answers is IDLE, where COMPLETE is not enabled. -/
theorem resetResult : Obligations.ResetResult := by
  unfold Obligations.ResetResult
  refine ⟨fun w => (decode_eq_reset_iff w).mpr, fun s => ?_⟩
  exact ⟨_, rfl, rfl, rfl, Memory.read?_nil, rfl, lanes_get_fill none, rfl, rfl, rfl, rfl, rfl, exec_reset_again rfl,
    execComplete_idle rfl⟩

/-- Settles O39: the run of `State.Inv.run_busy` ends right after the COMPLETE, with the whole frame in FRAME. -/
theorem encodeCompletes : Obligations.EncodeCompletes := by
  unfold Obligations.EncodeCompletes
  intro s df id hi hb hc hp
  obtain ⟨t, hrun, ht, -⟩ := hi.run_busy hb hc hp
  refine ⟨t, hrun, ht.phase, ht.valid, ht.cfg, fun i hlt => ?_⟩
  rw [ht.frame, read?_frameCells, if_pos hlt]

end Sys2Proof.Machine
end
